-- ==== Sys2Proof/Word.lean ====
section
/-! DEFINITION. The value types of spec/00_scope.md rule R8: a byte, a word and the 64-bit bit counter.
Every value of this hardware is unsigned; addition on each of these types wraps (R9, R110). -/

namespace Sys2Proof

/-- A byte: an unsigned 8-bit value (R8). -/
abbrev Byte := BitVec 8

/-- A word: an unsigned 32-bit value, parameter `WORD` (R7, R8). -/
abbrev Word := BitVec 32

/-- The processed-bit counter's type, parameter `COUNT_W` (R7, R31). -/
abbrev Count := BitVec 64

end Sys2Proof
end

