-- ==== Sys2Proof/Syntax.lean ====
section
/-! DEFINITION. The command set: one constructor for each row of spec/opcode_table.json (spec/30_encoding.md
rules R71 and R72). A command's other operands stand in the argument registers (R73, R74), not in the word. -/

namespace Sys2Proof

/-- A decoded command word. `c` is the slot number of the field CTX (R73). -/
inductive Instr where
  /-- MD5_INIT, OP 0x1 (R130). -/
  | md5Init (c : Nat)
  /-- MD5_UPDATE, OP 0x2 (R131). -/
  | md5Update (c : Nat)
  /-- MD5_FINAL, OP 0x3 (R132). -/
  | md5Final (c : Nat)
  /-- MD5_DIGEST, OP 0x4 (R133). -/
  | md5Digest (c : Nat)
  /-- TO64, OP 0x5 (R153). -/
  | to64
  /-- APR1_ENCODE, OP 0x6 (R177). -/
  | apr1Encode
  /-- SRESET, OP 0xF (R190). -/
  | sreset
deriving DecidableEq, Repr

/-- The slot a command names; the commands of OP 0x5, 0x6 and 0xF name none (R24, R34). -/
def Instr.slot? : Instr → Option Nat
  | .md5Init c   => some c
  | .md5Update c => some c
  | .md5Final c  => some c
  | .md5Digest c => some c
  | .to64        => none
  | .apr1Encode  => none
  | .sreset      => none

end Sys2Proof
end

