-- ==== Sys2Proof/WellFormed.lean ====
section
/-! DEFINITION. The commands that some word encodes: CTX is a 4-bit field (spec/30_encoding.md rules R70, R73).
A slot number of `NUM_CTX` or above is well formed; it is the check of R202 that rejects it (R75). -/

namespace Sys2Proof

/-- The slot number, where the command has one, fits the 4-bit field CTX (R70: "0..15 encodable"). -/
def Instr.wellFormed : Instr → Bool
  | .md5Init c   => decide (c < 16)
  | .md5Update c => decide (c < 16)
  | .md5Final c  => decide (c < 16)
  | .md5Digest c => decide (c < 16)
  | .to64        => true
  | .apr1Encode  => true
  | .sreset      => true

end Sys2Proof
end

