-- ==== Sys2Proof/Decode.lean ====
section
/-! DEFINITION. Decoding of a command word, total on every 32-bit word (spec/30_encoding.md rule R75), the
encoder written from the format of R70, and the table of R72. -/

namespace Sys2Proof

/-- Why a word is illegal (R77). Every reason is reported by the one error ILLEGAL_CMD (R201). -/
inductive DecodeError where
  /-- RSV = `w[31:8]` is not 0. -/
  | reservedBits
  /-- OP is 0x0 or one of 0x7 to 0xE. -/
  | illegalOp
  /-- CTX is not 0 with OP 0x5, 0x6 or 0xF. -/
  | ctxNotZero
deriving DecidableEq, Repr

/-- The field OP, bits 3:0 (R70). -/
def opField (w : Word) : BitVec 4 := w.extractLsb' 0 4

/-- The field CTX, bits 7:4 (R70). -/
def ctxField (w : Word) : BitVec 4 := w.extractLsb' 4 4

/-- The field RSV, bits 31:8 (R70). -/
def rsvField (w : Word) : BitVec 24 := w.extractLsb' 8 24

/-- A command that has no slot: its field CTX must be 0 (R75). -/
def withoutSlot (c : Nat) (i : Instr) : Except DecodeError Instr :=
  if c = 0 then .ok i else .error .ctxNotZero

/-- The command of a word whose reserved bits are 0, from OP and the slot number (R75). -/
def decodeOp (op c : Nat) : Except DecodeError Instr :=
  match op with
  | 0x1 => .ok (.md5Init c)
  | 0x2 => .ok (.md5Update c)
  | 0x3 => .ok (.md5Final c)
  | 0x4 => .ok (.md5Digest c)
  | 0x5 => withoutSlot c .to64
  | 0x6 => withoutSlot c .apr1Encode
  | 0xF => withoutSlot c .sreset
  | _   => .error .illegalOp

/-- `decode` of R75. -/
def decode (w : Word) : Except DecodeError Instr :=
  if rsvField w = 0 then decodeOp (opField w).toNat (ctxField w).toNat
  else .error .reservedBits

/-- The one command format C: RSV, CTX and OP, bit 31 on the left (R70). -/
def formatC (c : Nat) (op : BitVec 4) : Word := (0#24 ++ BitVec.ofNat 4 c) ++ op

/-- The word of a command (R70, R72). -/
def encode : Instr → Word
  | .md5Init c   => formatC c 0x1#4
  | .md5Update c => formatC c 0x2#4
  | .md5Final c  => formatC c 0x3#4
  | .md5Digest c => formatC c 0x4#4
  | .to64        => formatC 0 0x5#4
  | .apr1Encode  => formatC 0 0x6#4
  | .sreset      => formatC 0 0xF#4

/-- One row of the table of R72: `(w & mask) = pattern` selects `command`, given the slot number. -/
structure OpcodeRow where
  pattern : Word
  mask    : Word
  command : Nat → Instr

/-- A word selects a row (R72). -/
def OpcodeRow.selects (r : OpcodeRow) (w : Word) : Bool := w &&& r.mask == r.pattern

/-- The table of R72 (spec/opcode_table.json). -/
def opcodeTable : List OpcodeRow :=
  [ ⟨0x00000001, 0xFFFFFF0F, .md5Init⟩,
    ⟨0x00000002, 0xFFFFFF0F, .md5Update⟩,
    ⟨0x00000003, 0xFFFFFF0F, .md5Final⟩,
    ⟨0x00000004, 0xFFFFFF0F, .md5Digest⟩,
    ⟨0x00000005, 0xFFFFFFFF, fun _ => .to64⟩,
    ⟨0x00000006, 0xFFFFFFFF, fun _ => .apr1Encode⟩,
    ⟨0x0000000F, 0xFFFFFFFF, fun _ => .sreset⟩ ]

/-- The word an opcode-table word of `nbits` bits stands for: the bits above `nbits` are 0. A command has one
length, 32 bits (R70), and is written to CMD as a whole word, so it has no byte order (R55). -/
def tableWord (nbits w : Nat) : Word := BitVec.ofNat 32 (w % 2 ^ nbits)

/-- The command the decoder reads from a word numbered as spec/opcode_table.json numbers it. -/
def decodeTableWord (nbits w : Nat) : Option Instr :=
  if nbits ≤ 32 then (decode (tableWord nbits w)).toOption else none

end Sys2Proof
end

