-- ==== Sys2Proof/Machine/Context.lean ====
section
/-! DEFINITION. The digest context of spec/10_state.md rule R31, its lifecycle of rule R32, and a context slot. -/

namespace Sys2Proof.Machine

/-- The four accumulator words of a digest context (R31). They are also the working words `a, b, c, d` of R120. -/
structure Acc where
  A : Word
  B : Word
  C : Word
  D : Word
deriving DecidableEq, Repr, Inhabited

/-- A digest context: accumulators, bit counter, the 64-byte pending buffer and its length (R31).
Only `pend[0..plen)` is meaningful; `plen` is the 6-bit field 0..63 of R31. -/
structure Context where
  acc   : Acc
  count : Count
  pend  : Vector Byte 64
  plen  : Fin 64
deriving DecidableEq, Repr, Inhabited

/-- The context whose every field is 0 (R37, R38). -/
def Context.zero : Context where
  acc   := ⟨0, 0, 0, 0⟩
  count := 0
  pend  := Vector.replicate 64 0
  plen  := 0

/-- The lifecycle field of a slot (R31, R32). -/
inductive Life where
  | uninit
  | initialized
  | accumulating
  | finalized
deriving DecidableEq, Repr

/-- A slot that holds a stream: INITIALIZED or ACCUMULATING (R32). -/
def Life.live : Life → Bool
  | .initialized  => true
  | .accumulating => true
  | .uninit       => false
  | .finalized    => false

/-- One digest context slot `ctx[c]`: the source's digest state and the lifecycle field (R31). -/
structure Slot where
  ctx  : Context
  life : Life
deriving DecidableEq, Repr

/-- A slot after a hardware reset or SRESET (R38). -/
def Slot.reset : Slot where
  ctx  := Context.zero
  life := .uninit

end Sys2Proof.Machine
end

