-- ==== Sys2Proof/Config.lean ====
section
/-! DEFINITION. The implementation parameters of spec/00_scope.md rule R7, and the free values: constants
without a body for what the spec leaves open. -/

namespace Sys2Proof.Config

/-- How much of a context finalisation clears, parameter `SCRUB_MODE` (R7, R37). -/
inductive ScrubMode where
  | full
  | pointerSized
deriving DecidableEq, Repr

/-- Reset signalling, parameter `RESET_PROTOCOL`: synchronous or asynchronous, with its hold time (R7, R230). -/
inductive ResetProtocol where
  | synchronous (hold : Nat)
  | asynchronous (hold : Nat)
deriving DecidableEq, Repr

/-- The parameters of R7 that are not fixed by the source. A model takes them as arguments: they stand in the
state, no step changes them, and every statement ranges over all of their legal values (log entry 1). -/
structure Params where
  /-- `NUM_CTX`, the number of host-visible context slots. -/
  numCtx : Nat
  /-- `BUF_BYTES`, the size of BUF in bytes. -/
  bufBytes : Nat
  /-- `APR1_MIX_LITERAL`: phase 5 of apr1 feeds `seed[0]` when true, the byte 0x00 when false. -/
  mixLiteral : Bool
  /-- `SCRUB_MODE`. -/
  scrubMode : ScrubMode
  /-- `PLATFORM_BASE`, for the register space: no behaviour of the core depends on it (R61). -/
  regBase : Nat
  /-- `PLATFORM_BASE`, for BUF: no behaviour of the core depends on it (R61). -/
  bufBase : Nat
  /-- `RESET_PROTOCOL`: the model sees only the state after reset (R230). -/
  resetProtocol : ResetProtocol
deriving DecidableEq, Repr

/-- The legal values of R7. -/
abbrev Params.Legal (p : Params) : Prop :=
  1 ≤ p.numCtx ∧ p.numCtx ≤ 16 ∧ 64 ≤ p.bufBytes ∧ p.bufBytes ≤ 2 ^ 32

/-- The default values of R7. The two OPEN parameters that have no default, `PLATFORM_BASE` and
`RESET_PROTOCOL`, stand at a value nothing reads (log entry 1, DESIGN CHOICE). -/
def defaults : Params where
  numCtx        := 4
  bufBytes      := 4096
  mixLiteral    := false
  scrubMode     := .full
  regBase       := 0
  bufBase       := 0
  resetProtocol := .synchronous 0

/-- `SALT_MAX` (R7). -/
def saltMax : Nat := 8

/-- `STRETCH` (R7). -/
def stretch : Nat := 1000

/-- `TO64_NMAX` (R7). -/
def to64Nmax : Nat := 6

/-- `DIGEST_BYTES` (R7). -/
def digestBytes : Nat := 16

/-- FREE VALUE: what the host reads from a BUF byte that nothing has written, "a free draw" (R52). The argument
is the state's draw counter, so that each such read has a draw of its own (log entry 4). -/
opaque freeByte : Nat → Byte

/-- FREE VALUE: what a finalised context holds under `SCRUB_MODE = POINTER_SIZED`, which "clears only a
pointer-sized prefix" (R37); the spec gives neither the pointer's size nor the context's layout (log entry 5). -/
opaque pointerScrub : Machine.Context → Machine.Context

end Sys2Proof.Config
end

