-- ==== Sys2Proof/Machine/Codec.lean ====
section
/-! DEFINITION. The word codec of spec/40_word_codec.md: words to bytes and back, least-significant byte first. -/

namespace Sys2Proof.Machine

/-- `le32(w)`: 4 bytes, least-significant byte first (R100). -/
def le32 (w : Word) : List Byte :=
  [w.extractLsb' 0 8, w.extractLsb' 8 8, w.extractLsb' 16 8, w.extractLsb' 24 8]

/-- `unle32(s)` for the four bytes of `s` in order (R101). -/
def unle32 (s0 s1 s2 s3 : Byte) : Word :=
  s0.setWidth 32 ||| (s1.setWidth 32 <<< 8) ||| (s2.setWidth 32 <<< 16) ||| (s3.setWidth 32 <<< 24)

/-- `encode(ws)` (R102). -/
def encodeWords (ws : List Word) : List Byte := ws.flatMap le32

/-- `decode(s)` (R102). No command reaches it with a length that is no multiple of 4; such a rest is dropped. -/
def decodeWords : List Byte → List Word
  | s0 :: s1 :: s2 :: s3 :: s => unle32 s0 s1 s2 s3 :: decodeWords s
  | _ => []

/-- `le64(v)`: two words, low word first (R104). -/
def le64 (v : BitVec 64) : List Byte := le32 (v.extractLsb' 0 32) ++ le32 (v.extractLsb' 32 32)

end Sys2Proof.Machine
end

