-- ==== Sys2Proof/Machine/Md5.lean ====
section
/-! DEFINITION. The MD5 digest engine's pure functions (spec/41_md5_engine.md rules R110 to R129). -/

namespace Sys2Proof.Machine

/-- `rotl(a, s)` for `1 ≤ s ≤ 31` (R9). -/
def rotl (a : Word) (s : Nat) : Word := (a <<< s) ||| (a >>> (32 - s))

/-- `F(x, y, z)` (R111). -/
def mixF (x y z : Word) : Word := (x &&& y) ||| (~~~x &&& z)

/-- `G(x, y, z)` (R112). -/
def mixG (x y z : Word) : Word := (x &&& z) ||| (y &&& ~~~z)

/-- `H(x, y, z)` (R113). -/
def mixH (x y z : Word) : Word := x ^^^ y ^^^ z

/-- `I(x, y, z)` (R114). -/
def mixI (x y z : Word) : Word := y ^^^ (x ||| ~~~z)

/-- The names of the four mixing functions (R115). -/
inductive MixFn where
  | F
  | G
  | H
  | I
deriving DecidableEq, Repr

/-- The mixing function a name stands for (R111 to R114). -/
def MixFn.apply : MixFn → Word → Word → Word → Word
  | .F => mixF
  | .G => mixG
  | .H => mixH
  | .I => mixI

/-- One row of the step table: `fn(i)`, `KX[i]`, `SH[i]` and `T[i]` (R119). -/
structure StepRow where
  fn : MixFn
  kx : Nat
  sh : Nat
  t  : Word
deriving DecidableEq, Repr

/-- Steps 0 to 15 of the table of R119: mixing function, `KX[i]`, `SH[i]`, `T[i]`. -/
def stepGroup1 : List StepRow :=
  [ ⟨.F, 0, 7, 0xd76aa478⟩,
    ⟨.F, 1, 12, 0xe8c7b756⟩,
    ⟨.F, 2, 17, 0x242070db⟩,
    ⟨.F, 3, 22, 0xc1bdceee⟩,
    ⟨.F, 4, 7, 0xf57c0faf⟩,
    ⟨.F, 5, 12, 0x4787c62a⟩,
    ⟨.F, 6, 17, 0xa8304613⟩,
    ⟨.F, 7, 22, 0xfd469501⟩,
    ⟨.F, 8, 7, 0x698098d8⟩,
    ⟨.F, 9, 12, 0x8b44f7af⟩,
    ⟨.F, 10, 17, 0xffff5bb1⟩,
    ⟨.F, 11, 22, 0x895cd7be⟩,
    ⟨.F, 12, 7, 0x6b901122⟩,
    ⟨.F, 13, 12, 0xfd987193⟩,
    ⟨.F, 14, 17, 0xa679438e⟩,
    ⟨.F, 15, 22, 0x49b40821⟩ ]

/-- Steps 16 to 31 of the table of R119: mixing function, `KX[i]`, `SH[i]`, `T[i]`. -/
def stepGroup2 : List StepRow :=
  [ ⟨.G, 1, 5, 0xf61e2562⟩,
    ⟨.G, 6, 9, 0xc040b340⟩,
    ⟨.G, 11, 14, 0x265e5a51⟩,
    ⟨.G, 0, 20, 0xe9b6c7aa⟩,
    ⟨.G, 5, 5, 0xd62f105d⟩,
    ⟨.G, 10, 9, 0x02441453⟩,
    ⟨.G, 15, 14, 0xd8a1e681⟩,
    ⟨.G, 4, 20, 0xe7d3fbc8⟩,
    ⟨.G, 9, 5, 0x21e1cde6⟩,
    ⟨.G, 14, 9, 0xc33707d6⟩,
    ⟨.G, 3, 14, 0xf4d50d87⟩,
    ⟨.G, 8, 20, 0x455a14ed⟩,
    ⟨.G, 13, 5, 0xa9e3e905⟩,
    ⟨.G, 2, 9, 0xfcefa3f8⟩,
    ⟨.G, 7, 14, 0x676f02d9⟩,
    ⟨.G, 12, 20, 0x8d2a4c8a⟩ ]

/-- Steps 32 to 47 of the table of R119: mixing function, `KX[i]`, `SH[i]`, `T[i]`. -/
def stepGroup3 : List StepRow :=
  [ ⟨.H, 5, 4, 0xfffa3942⟩,
    ⟨.H, 8, 11, 0x8771f681⟩,
    ⟨.H, 11, 16, 0x6d9d6122⟩,
    ⟨.H, 14, 23, 0xfde5380c⟩,
    ⟨.H, 1, 4, 0xa4beea44⟩,
    ⟨.H, 4, 11, 0x4bdecfa9⟩,
    ⟨.H, 7, 16, 0xf6bb4b60⟩,
    ⟨.H, 10, 23, 0xbebfbc70⟩,
    ⟨.H, 13, 4, 0x289b7ec6⟩,
    ⟨.H, 0, 11, 0xeaa127fa⟩,
    ⟨.H, 3, 16, 0xd4ef3085⟩,
    ⟨.H, 6, 23, 0x04881d05⟩,
    ⟨.H, 9, 4, 0xd9d4d039⟩,
    ⟨.H, 12, 11, 0xe6db99e5⟩,
    ⟨.H, 15, 16, 0x1fa27cf8⟩,
    ⟨.H, 2, 23, 0xc4ac5665⟩ ]

/-- Steps 48 to 63 of the table of R119: mixing function, `KX[i]`, `SH[i]`, `T[i]`. -/
def stepGroup4 : List StepRow :=
  [ ⟨.I, 0, 6, 0xf4292244⟩,
    ⟨.I, 7, 10, 0x432aff97⟩,
    ⟨.I, 14, 15, 0xab9423a7⟩,
    ⟨.I, 5, 21, 0xfc93a039⟩,
    ⟨.I, 12, 6, 0x655b59c3⟩,
    ⟨.I, 3, 10, 0x8f0ccc92⟩,
    ⟨.I, 10, 15, 0xffeff47d⟩,
    ⟨.I, 1, 21, 0x85845dd1⟩,
    ⟨.I, 8, 6, 0x6fa87e4f⟩,
    ⟨.I, 15, 10, 0xfe2ce6e0⟩,
    ⟨.I, 6, 15, 0xa3014314⟩,
    ⟨.I, 13, 21, 0x4e0811a1⟩,
    ⟨.I, 4, 6, 0xf7537e82⟩,
    ⟨.I, 11, 10, 0xbd3af235⟩,
    ⟨.I, 2, 15, 0x2ad7d2bb⟩,
    ⟨.I, 9, 21, 0xeb86d391⟩ ]

/-- The complete step table, rows 0 to 63 in order (R119, R36). -/
def stepTable : List StepRow := stepGroup1 ++ stepGroup2 ++ stepGroup3 ++ stepGroup4

/-- `step(i, (a, b, c, d), X)`, for the row of step `i` (R120). -/
def md5Step (X : List Word) (v : Acc) (r : StepRow) : Acc :=
  let t := v.A + r.fn.apply v.B v.C v.D + X.getD r.kx 0 + r.t
  ⟨v.D, v.B + rotl t r.sh, v.B, v.C⟩

/-- `compress((A, B, C, D), block)`: the 64 steps, and the sum with the accumulators (R121). -/
def compress (acc : Acc) (block : Vector Byte 64) : Acc :=
  let v := stepTable.foldl (md5Step (decodeWords block.toList)) acc
  ⟨acc.A + v.A, acc.B + v.B, acc.C + v.C, acc.D + v.D⟩

/-- The table `IV` (R36, R124). -/
def iv : Acc := ⟨0x67452301, 0xefcdab89, 0x98badcfe, 0x10325476⟩

/-- `md5_init()` (R124). -/
def md5Init : Context := { Context.zero with acc := iv }

/-- The body of the loop of R125 for one byte: append it, and compress a full block. -/
def pushByte (ctx : Context) (b : Byte) : Context :=
  let pend := ctx.pend.set ctx.plen b
  if ctx.plen.val + 1 = 64 then { ctx with acc := compress ctx.acc pend, pend := pend, plen := 0 }
  else { ctx with pend := pend, plen := ctx.plen + 1 }

/-- `md5_update_raw(ctx, m)`: the loop of R125 without its last line (R128). -/
def md5UpdateRaw (ctx : Context) (m : List Byte) : Context := m.foldl pushByte ctx

/-- `md5_update(ctx, m)` (R125). The counter wraps modulo 2^64 (R110). -/
def md5Update (ctx : Context) (m : List Byte) : Context :=
  let ctx := md5UpdateRaw ctx m
  { ctx with count := ctx.count + BitVec.ofNat 64 (8 * m.length) }

/-- `P` of R127: how many bytes of 0x80 and zeros the padding has. -/
def padLength (L : Nat) : Nat := if L < 56 then 56 - L else 120 - L

/-- `pad(L, count)` (R127). -/
def pad (L : Nat) (count : Count) : List Byte :=
  [0x80] ++ List.replicate (padLength L - 1) 0x00 ++ le64 count

/-- The digest bytes of the accumulators (R55, R128). -/
def digestOf (acc : Acc) : List Byte := encodeWords [acc.A, acc.B, acc.C, acc.D]

/-- The context after padding, before it is scrubbed (R128). -/
def md5Padded (ctx : Context) : Context := md5UpdateRaw ctx (pad ctx.plen.val ctx.count)

/-- What finalisation leaves in the context: all zero, or under POINTER_SIZED a free value (R37, R128). -/
def scrub (mode : Config.ScrubMode) (ctx : Context) : Context :=
  match mode with
  | .full => Context.zero
  | .pointerSized => Config.pointerScrub ctx

/-- `md5_final(ctx)`: the digest and the scrubbed context (R128). -/
def md5Final (mode : Config.ScrubMode) (ctx : Context) : List Byte × Context :=
  (digestOf (md5Padded ctx).acc, scrub mode (md5Padded ctx))

/-- The digest of `md5_final(ctx)` (R128). -/
def md5Digest (ctx : Context) : List Byte := digestOf (md5Padded ctx).acc

/-- `md5(m)` (R129). -/
def md5 (m : List Byte) : List Byte := md5Digest (md5Update md5Init m)

end Sys2Proof.Machine
end

