-- ==== Sys2Proof/Machine/State.lean ====
section
/-! DEFINITION. The state: every register, slot and byte that spec/10_state.md and spec/20_memory.md give the
core, and the host's port accesses that have not been performed yet (spec/70_reset_and_hazards.md rule R250). -/

namespace Sys2Proof.Machine

/-- The error codes of R201; `none` is the code NONE. The byte each stands for is `ErrorCode.code`. -/
inductive ErrorCode where
  | none
  | illegalCmd
  | ctxRange
  | badArg
  | bounds
  | ctxState
deriving DecidableEq, Repr

/-- STATUS: its three fields (R26). The reserved bits are no storage: they read 0 (`Status.word`). -/
structure Status where
  busy    : Bool
  err     : Bool
  errcode : ErrorCode
deriving DecidableEq, Repr

/-- STATUS after reset (R38). -/
def Status.reset : Status where
  busy    := false
  err     := false
  errcode := .none

/-- BUF as a list of written bytes, addresses strictly rising. An address that is not listed holds no value:
nothing has written it (R52). -/
abbrev Memory := List Host.Cell

/-- The canonical form: addresses strictly rising. -/
abbrev Memory.Wf (m : Memory) : Prop := m.Pairwise (fun x y => x.1 < y.1)

/-- The working state of one APR1_ENCODE (R35): password text, salt, the primary and the secondary context,
`seed`, `final` and the assembled output string. -/
structure Apr1Work where
  pw        : List Byte
  salt      : List Byte
  primary   : Context
  secondary : Context
  seed      : List Byte
  final     : List Byte
  out       : List Byte
deriving DecidableEq, Repr

/-- One access of the host at the core's ports, or the reset input (R57, R230, R250). Widths are in bytes. -/
inductive HostOp where
  /-- A write to the register space. -/
  | writeReg (width offset : Nat) (data : Word)
  /-- A read of the register space. -/
  | readReg (width offset : Nat)
  /-- A write to the buffer port. -/
  | writeBuf (width addr : Nat) (data : Byte)
  /-- A read of the buffer port. -/
  | readBuf (width addr : Nat)
  /-- The reset input is asserted. -/
  | reset
deriving DecidableEq, Repr

/-- What a host read gets back (R250). -/
inductive Reply where
  | word (w : Word)
  | byte (b : Byte)
deriving DecidableEq, Repr

/-- Why the machine stops. -/
inductive Fault where
  /-- BUF_UNWRITTEN: a command reads a BUF byte that nothing has written (R52, R205). Raised by MD5_UPDATE,
  MD5_DIGEST and APR1_ENCODE through `Memory.readBytes` and `Memory.text`. Safe: the hardware goes on with
  whatever the memory holds, and the spec names the fault itself. -/
  | bufUnwritten (addr : Nat)
deriving DecidableEq, Repr

/-- Why the model has no move. -/
inductive Refusal where
  /-- An instruction without a meaning; no arm raises it. Safe. -/
  | notModelled (mnemonic : String)
  /-- HOST_DUTY: the host accesses the core, other than by a STATUS read, or resets it, while BUSY = 1 (R205,
  R231, R240: "The model has no such move"). Raised by `hostMove`. Safe: no claim covers such a host. -/
  | hostDuty
deriving DecidableEq, Repr

/-- The machine's state. -/
structure State where
  /-- The implementation parameters (R7, R20). No step changes them. -/
  params : Config.Params
  /-- CMD, offset 0x00: the last word written (R24). -/
  cmd : Word
  /-- STATUS, offset 0x04 (R26). -/
  status : Status
  /-- RESULT, offset 0x08 (R27). -/
  result : Word
  /-- ARG0, offset 0x10 (R25). -/
  arg0 : Word
  /-- ARG1, offset 0x14. -/
  arg1 : Word
  /-- ARG2, offset 0x18. -/
  arg2 : Word
  /-- ARG3, offset 0x1C. -/
  arg3 : Word
  /-- ARG4, offset 0x20. -/
  arg4 : Word
  /-- ARG5, offset 0x24. -/
  arg5 : Word
  /-- The context slots `ctx[0]` to `ctx[NUM_CTX-1]` (R31). -/
  ctx : List Slot
  /-- The buffer memory BUF (R50, R52). -/
  buf : Memory
  /-- The working state of APR1_ENCODE, which exists only while one executes (R35, R38). -/
  apr1 : Option Apr1Work
  /-- The host's accesses that have not been performed yet, oldest first (R20, R63, R250; log entry 2). -/
  pending : List HostOp
  /-- What the host's reads got back, newest first (R250; log entry 3). -/
  replies : List Reply
  /-- The model's own: how many free draws host reads of unwritten BUF bytes have taken (R52; log entry 4). -/
  draws : Nat
deriving DecidableEq, Repr

/-- The core after a hardware reset with parameters `p` (R38, R230): it waits for the host. -/
def State.resetWith (p : Config.Params) : State where
  params  := p
  cmd     := 0x00000000
  status  := Status.reset
  result  := 0x00000000
  arg0    := 0x00000000
  arg1    := 0x00000000
  arg2    := 0x00000000
  arg3    := 0x00000000
  arg4    := 0x00000000
  arg5    := 0x00000000
  ctx     := List.replicate p.numCtx Slot.reset
  buf     := []
  apr1    := none
  pending := []
  replies := []
  draws   := 0

/-- The machine right after reset, with the default parameters of R7. -/
def State.reset : State := State.resetWith Config.defaults

/-- What one step or one command answers. -/
abbrev Result := Host.Outcome State Fault Refusal

end Sys2Proof.Machine
end

