-- ==== Sys2Proof/Machine/To64.lean ====
section
/-! DEFINITION. The to64 encoder's pure function and its alphabet (spec/42_to64.md rules R150, R151). -/

namespace Sys2Proof.Machine

/-- `n` consecutive byte values from `first` on: one row of the table of R150. -/
def byteRun (first n : Nat) : List Byte := (List.range n).map fun i => BitVec.ofNat 8 (first + i)

/-- The table `ALPHA`: `.`, `/`, the digits, the capitals, the small letters (R150, R36). -/
def alpha : List Byte :=
  [0x2E, 0x2F] ++ byteRun 0x30 10 ++ byteRun 0x41 26 ++ byteRun 0x61 26

/-- `ALPHA[v]` for `v ≤ 63` (R150). -/
def alphaChar (v : Nat) : Byte := alpha.getD v 0

/-- `to64(value, n)`: least-significant 6-bit group first (R151). -/
def to64 (value : Nat) : Nat → List Byte
  | 0 => []
  | n + 1 => alphaChar (value &&& 0x3F) :: to64 (value >>> 6) n

end Sys2Proof.Machine
end

