-- ==== Sys2Proof/Machine/Apr1.lean ====
section
/-! DEFINITION. The apr1 password encoder's pure functions (spec/43_apr1.md rules R161 to R175). -/

namespace Sys2Proof.Machine

/-- The table `MAGIC`, the marker `"$apr1$"` (R161, R36). -/
def magic : List Byte := [0x24, 0x61, 0x70, 0x72, 0x31, 0x24]

/-- The character `$`. -/
def dollar : Byte := 0x24

/-- The salt source without the marker, skipped at most once (R162). -/
def skipMagic (sp : List Byte) : List Byte := if sp.take 6 = magic then sp.drop 6 else sp

/-- `salt_of(sp)`: the characters before the first `$`, at most 8 of them (R162). -/
def saltOf (sp : List Byte) : List Byte :=
  ((skipMagic sp).take Config.saltMax).takeWhile (fun b => decide (b ≠ dollar))

/-- Phase 4: `seed` in chunks of at most 16 bytes, `|pw| = L` bytes in all (R167). -/
def seedChunks (P : Context) (seed : List Byte) (L : Nat) : Context :=
  (List.range ((L + 15) / 16)).foldl (fun P j => md5Update P (seed.take (min 16 (L - 16 * j)))) P

/-- The mixing byte of phase 5 (R169). -/
def mixByte (literal : Bool) (seed : List Byte) : Byte := if literal then seed.getD 0 0 else 0x00

/-- Phase 5: one byte for each bit of `i`, from the lowest (R168). `fuel` bounds the loop; `i` itself suffices. -/
def mixBits (fuel i : Nat) (one zero : Byte) (P : Context) : Context :=
  match fuel with
  | 0 => P
  | fuel + 1 =>
    if i = 0 then P
    else mixBits fuel (i >>> 1) one zero (md5Update P [if i &&& 1 = 1 then one else zero])

/-- The message round `i` of phase 7 hashes, in four parts (R171). -/
def roundContext (pw salt final : List Byte) (i : Nat) : Context :=
  let R := md5Update md5Init (if i &&& 1 = 1 then pw else final)
  let R := if i % 3 ≠ 0 then md5Update R salt else R
  let R := if i % 7 ≠ 0 then md5Update R pw else R
  md5Update R (if i &&& 1 = 1 then final else pw)

/-- Round `i` of phase 7: the digest that replaces `final` (R171). -/
def stretchRound (pw salt : List Byte) (final : List Byte) (i : Nat) : List Byte :=
  md5Digest (roundContext pw salt final i)

/-- Phase 7: the 1000 rounds, in order (R171). -/
def stretchAll (pw salt final : List Byte) : List Byte :=
  (List.range Config.stretch).foldl (stretchRound pw salt) final

/-- The table `PERM`: the byte indices of groups 1 to 5 (R173, R36). -/
def permTriples : List (Nat × Nat × Nat) :=
  [(0, 6, 12), (1, 7, 13), (2, 8, 14), (3, 9, 15), (4, 10, 5)]

/-- The table `PERM`: the byte index of group 6 (R173). -/
def permLast : Nat := 11

/-- Byte `i` of a digest as a natural. -/
def digestByte (final : List Byte) (i : Nat) : Nat := (final.getD i 0).toNat

/-- The 24-bit value of one triple (R173). -/
def tripleValue (final : List Byte) (t : Nat × Nat × Nat) : Nat :=
  (digestByte final t.1 <<< 16) ||| (digestByte final t.2.1 <<< 8) ||| digestByte final t.2.2

/-- Phase 8: the 22 characters of the permuted digest (R174). -/
def encodeFinal (final : List Byte) : List Byte :=
  permTriples.flatMap (fun t => to64 (tripleValue final t) 4) ++ to64 (digestByte final permLast) 2

/-- Phases 1 to 8: every working value of one APR1_ENCODE (R35, R175). `literal` is `APR1_MIX_LITERAL`. -/
def apr1Work (literal : Bool) (pw sp : List Byte) : Apr1Work :=
  let salt := saltOf sp
  let P := md5Update md5Init (pw ++ magic ++ salt)
  let S := md5Update md5Init (pw ++ salt ++ pw)
  let seed := md5Digest S
  let P := seedChunks P seed pw.length
  let P := mixBits pw.length pw.length (mixByte literal seed) (pw.getD 0 0) P
  let final := stretchAll pw salt (md5Digest P)
  { pw        := pw
    salt      := salt
    primary   := P
    secondary := S
    seed      := seed
    final     := final
    out       := magic ++ salt ++ [dollar] ++ encodeFinal final }

/-- `apr1_string(pw, sp)` (R175). -/
def apr1String (literal : Bool) (pw sp : List Byte) : List Byte := (apr1Work literal pw sp).out

/-- `k` of R176: how many characters the copy writes. -/
def copyCount (cap len : Nat) : Nat := if cap = 0 then 0 else min (cap - 1) len

/-- `W` of R176: how many BUF bytes the copy writes, the terminating 0x00 included. -/
def copyWidth (cap len : Nat) : Nat := if cap = 0 then 0 else min (cap - 1) len + 1

/-- The bytes the copy writes (R176): the largest part that fits, and 0x00; nothing in zero bytes. -/
def copyBytes (cap : Nat) (S : List Byte) : List Byte :=
  if cap = 0 then [] else S.take (copyCount cap S.length) ++ [0x00]

end Sys2Proof.Machine
end

