-- ==== Sys2Proof/Machine/Flags.lean ====
section
/-! DEFINITION. STATUS: the register word of spec/10_state.md rule R26 and the rules that write its fields (R28,
R29, R30). The core has no condition code or arithmetic flag (R30): BUSY and ERR are its only flag-like bits. -/

namespace Sys2Proof.Machine

/-- The ERRCODE byte of an error (R201). -/
def ErrorCode.code : ErrorCode → Byte
  | .none       => 0x00
  | .illegalCmd => 0x01
  | .ctxRange   => 0x02
  | .badArg     => 0x03
  | .bounds     => 0x04
  | .ctxState   => 0x05

/-- The STATUS register as the host reads it: BUSY in bit 0, ERR in bit 1, ERRCODE in bits 15:8, and 0 in the
reserved bits 7:2 and 31:16 (R26). -/
def Status.word (st : Status) : Word :=
  0#16 ++ (st.errcode.code ++ (0#6 ++ (BitVec.ofBool st.err ++ BitVec.ofBool st.busy)))

/-- BUSY is set at issue and cleared at completion (R28). -/
def Status.withBusy (st : Status) (b : Bool) : Status := { st with busy := b }

/-- An error is recorded only if ERR was 0; ERR and ERRCODE are sticky (R29). -/
def Status.record (st : Status) (e : ErrorCode) : Status :=
  if st.err then st else { st with err := true, errcode := e }

end Sys2Proof.Machine
end

