-- ==== Sys2Proof/Machine/Ops.lean ====
section
/-! DEFINITION. The named operations over BUF, the slots and the registers (spec/20_memory.md, spec/10_state.md),
raising an error as one shared operation (spec/60_exceptions.md rule R203) and leaving the error state beside it. -/

namespace Sys2Proof.Machine

/-- The value a BUF byte holds, or none where nothing has written it (R52, R60). -/
def Memory.read : Memory → Nat → Option Byte
  | [], _ => none
  | c :: m, a => if a = c.1 then some c.2 else Memory.read m a

/-- Store one byte, keeping the addresses strictly rising (R50). -/
def Memory.write : Memory → Nat → Byte → Memory
  | [], a, b => [(a, b)]
  | c :: m, a, b =>
    if a < c.1 then (a, b) :: c :: m
    else if a = c.1 then (a, b) :: m
    else c :: Memory.write m a b

/-- `MemWrite(addr, |s|, s)`: `BUF[addr+i] <- s[i]` (R10). -/
def Memory.writeBytes (m : Memory) (a : Nat) : List Byte → Memory
  | [] => m
  | b :: bs => Memory.writeBytes (m.write a b) (a + 1) bs

/-- A byte a command reads: BUF_UNWRITTEN where nothing has written it (R52). -/
def Memory.fetch (m : Memory) (a : Nat) : Except Fault Byte :=
  match m.read a with
  | some b => .ok b
  | none => .error (.bufUnwritten a)

/-- `MemRead(addr, n)`: the bytes `BUF[addr], …, BUF[addr+n-1]` (R10), as a command reads them. -/
def Memory.readBytes (m : Memory) (a : Nat) : Nat → Except Fault (List Byte)
  | 0 => .ok []
  | n + 1 =>
    match m.fetch a with
    | .error f => .error f
    | .ok b =>
      match Memory.readBytes m (a + 1) n with
      | .error f => .error f
      | .ok bs => .ok (b :: bs)

/-- Context slot `c` (R31). A command uses a slot below `NUM_CTX` only (R202). -/
def State.slot (s : State) (c : Nat) : Slot := s.ctx.getD c Slot.reset

/-- Replace context slot `c`, and no other (R34). -/
def State.setSlot (s : State) (c : Nat) (x : Slot) : State := { s with ctx := s.ctx.set c x }

/-- A successful command writes RESULT (R27). -/
def State.setResult (s : State) (v : Word) : State := { s with result := v }

/-- A command writes the byte string `bs` to BUF from address `a` on (R59). -/
def State.store (s : State) (a : Nat) (bs : List Byte) : State :=
  { s with buf := s.buf.writeBytes a bs }

/-- STATUS.BUSY <- b (R28). -/
def State.setBusy (s : State) (b : Bool) : State := { s with status := s.status.withBusy b }

/-- `raise Error(e)`: nothing changes except STATUS (R203), and STATUS only if ERR was 0 (R29). There is no
trap, no handler and no saved program state (R200, R208). -/
def State.raiseError (s : State) (e : ErrorCode) : State := { s with status := s.status.record e }

/-- Leaving the error state, as SRESET does it: STATUS <- 0 and RESULT <- 0, every slot zero and UNINIT (R190,
R209), and no working state of APR1_ENCODE (R38). -/
def State.softReset (s : State) : State :=
  { s with
    status := Status.reset
    result := 0x00000000
    ctx    := List.replicate s.params.numCtx Slot.reset
    apr1   := none }

/-- The reset input: every piece of the core's state at its reset value (R230). The host's own queue, what it has
read and the draws it has taken are not the core's. -/
def State.hardReset (s : State) : State :=
  { State.resetWith s.params with
    pending := s.pending
    replies := s.replies
    draws   := s.draws }

/-- `check` then `execute` (R76): a code other than NONE is raised, and a model-only fault ends the run. -/
def afterCheck (e : Except Fault ErrorCode) (s : State) (effect : Result) : Result :=
  match e with
  | .error f => .fault f
  | .ok .none => effect
  | .ok code => .next (s.raiseError code)

/-- The bytes a command reads, before any write (R54), or the fault that reading them raises. -/
def withBytes (r : Except Fault (List Byte)) (k : List Byte → Result) : Result :=
  match r with
  | .error f => .fault f
  | .ok m => k m

end Sys2Proof.Machine
end

