-- ==== Sys2Proof/Machine/Operands.lean ====
section
/-! DEFINITION. Every operand form: arguments, ranges and text operands (spec/30_encoding.md rules R73, R74,
spec/20_memory.md rule R53, spec/43_apr1.md rule R160), and the check that decides every error before a command
has an effect (spec/60_exceptions.md rule R202). -/

namespace Sys2Proof.Machine

/-- An operand range that is not in bounds, on unbounded naturals (R53). -/
abbrev State.outOfBounds (s : State) (addr len : Nat) : Prop := s.params.bufBytes < addr + len

/-- `src = ARG0`, `len = ARG1` for MD5_UPDATE and MD5_DIGEST, `pw`, `pwlen` for APR1_ENCODE, `value`, `n` for
TO64 (R74), zero-extended (R73). -/
def State.a0 (s : State) : Nat := s.arg0.toNat

/-- ARG1, zero-extended (R73, R74). -/
def State.a1 (s : State) : Nat := s.arg1.toNat

/-- `sp = ARG2`, zero-extended (R73, R74). -/
def State.a2 (s : State) : Nat := s.arg2.toNat

/-- `splen = ARG3`, zero-extended (R73, R74). -/
def State.a3 (s : State) : Nat := s.arg3.toNat

/-- `dst = ARG4`, zero-extended (R73, R74). -/
def State.a4 (s : State) : Nat := s.arg4.toNat

/-- `cap = ARG5`, zero-extended (R73, R74). -/
def State.a5 (s : State) : Nat := s.arg5.toNat

/-- `text(addr, len)`: the bytes before the first 0x00, at most `len`; bytes after it are not read (R160). -/
def Memory.text (m : Memory) (a : Nat) : Nat → Except Fault (List Byte)
  | 0 => .ok []
  | n + 1 =>
    match m.fetch a with
    | .error f => .error f
    | .ok b =>
      if b = 0x00 then .ok []
      else
        match Memory.text m (a + 1) n with
        | .error f => .error f
        | .ok bs => .ok (b :: bs)

/-- The length of the encoded string for a salt (R175), known before it is computed (R176, R202). -/
def apr1Length (salt : List Byte) : Nat := 29 + salt.length

/-- The check of APR1_ENCODE's output range, which depends on the salt (R202). -/
def checkApr1Out (s : State) (sp : List Byte) : ErrorCode :=
  if s.outOfBounds s.a4 (copyWidth s.a5 (apr1Length (saltOf sp))) then .bounds else .none

/-- `check(k, args, state)`: the first error that applies, in the order of R202. It reads BUF for the salt
source of APR1_ENCODE only. ILLEGAL_CMD, which precedes all of these, is raised at issue. -/
def check (k : Instr) (s : State) : Except Fault ErrorCode :=
  match k with
  | .md5Init c =>
    .ok (if s.params.numCtx ≤ c then .ctxRange else .none)
  | .md5Update c =>
    .ok (if s.params.numCtx ≤ c then .ctxRange
      else if s.outOfBounds s.a0 s.a1 then .bounds
      else if (s.slot c).life.live = false then .ctxState
      else .none)
  | .md5Final c =>
    .ok (if s.params.numCtx ≤ c then .ctxRange
      else if s.outOfBounds s.a4 Config.digestBytes then .bounds
      else if (s.slot c).life.live = false then .ctxState
      else .none)
  | .md5Digest c =>
    .ok (if s.params.numCtx ≤ c then .ctxRange
      else if s.outOfBounds s.a0 s.a1 then .bounds
      else if s.outOfBounds s.a4 Config.digestBytes then .bounds
      else .none)
  | .to64 =>
    .ok (if Config.to64Nmax < s.a1 then .badArg
      else if s.outOfBounds s.a4 s.a1 then .bounds
      else .none)
  | .apr1Encode =>
    if s.outOfBounds s.a0 s.a1 ∨ s.outOfBounds s.a2 s.a3 then .ok .bounds
    else
      match s.buf.text s.a2 s.a3 with
      | .error f => .error f
      | .ok sp => .ok (checkApr1Out s sp)
  | .sreset => .ok .none

end Sys2Proof.Machine
end

