-- ==== Sys2Proof/Machine/Apr1Command.lean ====
section
/-! DEFINITION. The meaning of APR1_ENCODE (spec/43_apr1.md rules R176 to R178). -/

namespace Sys2Proof.Machine

/-- Phases 1 to 8 fill the working state (R35, R175). -/
def State.runApr1 (s : State) (pw sp : List Byte) : State :=
  { s with apr1 := some (apr1Work s.params.mixLiteral pw sp) }

/-- Phase 9: the copy of the assembled string into `(dst, cap)`, and RESULT (R176). -/
def State.copyApr1 (s : State) : State :=
  match s.apr1 with
  | none => s
  | some w =>
    (s.store s.a4 (copyBytes s.a5 w.out)).setResult (BitVec.ofNat 32 (copyCount s.a5 w.out.length))

/-- Phase 10: the working state is gone before the command completes (R35, R178). -/
def State.scrubApr1 (s : State) : State := { s with apr1 := none }

/-- APR1_ENCODE (R177): both texts are read before any write (R54); no slot is read or written (R35). -/
def execApr1Encode (s : State) : Result :=
  afterCheck (check .apr1Encode s) s
    (withBytes (s.buf.text s.a0 s.a1) fun pw =>
      withBytes (s.buf.text s.a2 s.a3) fun sp =>
        .next ((s.runApr1 pw sp).copyApr1.scrubApr1))

end Sys2Proof.Machine
end

