-- ==== Sys2Proof/Machine/Control.lean ====
section
/-! DEFINITION. The meaning of SRESET (spec/44_control.md rule R190). -/

namespace Sys2Proof.Machine

/-- SRESET (R190): no errors; the arguments, BUF and CMD keep their values. -/
def execSreset (s : State) : Result :=
  afterCheck (check .sreset s) s (.next s.softReset)

end Sys2Proof.Machine
end

