-- ==== Sys2Proof/Machine/Md5Commands.lean ====
section
/-! DEFINITION. The meanings of MD5_INIT, MD5_UPDATE, MD5_FINAL and MD5_DIGEST (spec/41_md5_engine.md rules R130 to
R133). -/

namespace Sys2Proof.Machine

/-- MD5_INIT (R130). -/
def execMd5Init (c : Nat) (s : State) : Result :=
  afterCheck (check (.md5Init c) s) s
    (.next ((s.setSlot c ⟨md5Init, .initialized⟩).setResult 0))

/-- MD5_UPDATE (R131). -/
def execMd5Update (c : Nat) (s : State) : Result :=
  afterCheck (check (.md5Update c) s) s
    (withBytes (s.buf.readBytes s.a0 s.a1) fun m =>
      .next ((s.setSlot c ⟨md5Update (s.slot c).ctx m, .accumulating⟩).setResult 0))

/-- The last three lines of MD5_FINAL and MD5_DIGEST: the digest of a context to `dst`, the slot scrubbed and
FINALIZED, RESULT <- 16 (R132, R133, R37). -/
def State.finishDigest (s : State) (c : Nat) (ctx : Context) : State :=
  let r := md5Final s.params.scrubMode ctx
  ((s.store s.a4 r.1).setSlot c ⟨r.2, .finalized⟩).setResult (BitVec.ofNat 32 Config.digestBytes)

/-- MD5_FINAL (R132). -/
def execMd5Final (c : Nat) (s : State) : Result :=
  afterCheck (check (.md5Final c) s) s
    (.next (s.finishDigest c (s.slot c).ctx))

/-- MD5_DIGEST (R133). -/
def execMd5Digest (c : Nat) (s : State) : Result :=
  afterCheck (check (.md5Digest c) s) s
    (withBytes (s.buf.readBytes s.a0 s.a1) fun m =>
      .next (s.finishDigest c (md5Update md5Init m)))

end Sys2Proof.Machine
end

