-- ==== Sys2Proof/Machine/To64Command.lean ====
section
/-! DEFINITION. The meaning of TO64 (spec/42_to64.md rule R153). -/

namespace Sys2Proof.Machine

/-- TO64 (R153): RESULT <- `n`, no terminating 0x00. -/
def execTo64 (s : State) : Result :=
  afterCheck (check .to64 s) s
    (.next ((s.store s.a4 (to64 s.a0 s.a1)).setResult s.arg1))

end Sys2Proof.Machine
end

