-- ==== Sys2Proof/Machine/Dispatch.lean ====
section
/-! DEFINITION. One arm for each command (spec/30_encoding.md rule R71): its check, then its effect (R76). -/

namespace Sys2Proof.Machine

def exec (i : Instr) (s : State) : Host.Outcome State Fault Refusal :=
  match i with
  | .md5Init c => Sys2Proof.Machine.execMd5Init c s
  | .md5Update c => Sys2Proof.Machine.execMd5Update c s
  | .md5Final c => Sys2Proof.Machine.execMd5Final c s
  | .md5Digest c => Sys2Proof.Machine.execMd5Digest c s
  | .to64 => Sys2Proof.Machine.execTo64 s
  | .apr1Encode => Sys2Proof.Machine.execApr1Encode s
  | .sreset => Sys2Proof.Machine.execSreset s

end Sys2Proof.Machine
end

