-- ==== Sys2Proof/Machine/Issue.lean ====
section
/-! DEFINITION. Issuing a command (spec/30_encoding.md rule R76) and the host's ports (spec/20_memory.md rule R57,
spec/70_reset_and_hazards.md rule R250). -/

namespace Sys2Proof.Machine

/-- The word the sticky state still executes: SRESET (R76, R204). -/
def sresetWord : Word := 0x0000000F

/-- What decode gives, executed; an illegal word raises ILLEGAL_CMD (R76, R77, R201). -/
def runDecoded (w : Word) (s : State) : Result :=
  match decode w with
  | .error _ => .next (s.raiseError .illegalCmd)
  | .ok i => exec i s

/-- STATUS.BUSY <- 0 at the end of a command (R28, R76). -/
def complete (r : Result) : Result :=
  match r with
  | .next s => .next (s.setBusy false)
  | .fault f => .fault f
  | .refused x => .refused x

/-- `issue(w)`, one atomic transition (R76). While ERR = 1 a word other than SRESET only stands in CMD (R204). -/
def issue (w : Word) (s : State) : Result :=
  let s := { s with cmd := w }
  if s.status.err = true ∧ w ≠ sresetWord then .next s
  else complete (runDecoded w (s.setBusy true))

/-- The register space as the host reads it: aligned words; 0 at a reserved offset and for every other width or
offset (R23, R57). -/
def State.readReg (s : State) (width offset : Nat) : Word :=
  if width = 4 then
    match offset with
    | 0x00 => s.cmd
    | 0x04 => s.status.word
    | 0x08 => s.result
    | 0x10 => s.arg0
    | 0x14 => s.arg1
    | 0x18 => s.arg2
    | 0x1C => s.arg3
    | 0x20 => s.arg4
    | 0x24 => s.arg5
    | _    => 0
  else 0

/-- A host write to the register space: CMD issues a command, ARG0 to ARG5 store the word, and every other write
is ignored (R23, R24, R25, R57). -/
def writeReg (width offset : Nat) (data : Word) (s : State) : Result :=
  if width = 4 then
    match offset with
    | 0x00 => issue data s
    | 0x10 => .next { s with arg0 := data }
    | 0x14 => .next { s with arg1 := data }
    | 0x18 => .next { s with arg2 := data }
    | 0x1C => .next { s with arg3 := data }
    | 0x20 => .next { s with arg4 := data }
    | 0x24 => .next { s with arg5 := data }
    | _    => .next s
  else .next s

/-- What the host gets back is noted (R250). -/
def State.reply (s : State) (r : Reply) : State := { s with replies := r :: s.replies }

/-- A host access to the buffer port is one byte at an address below `BUF_BYTES` (R57). -/
abbrev State.bufAccess (s : State) (width addr : Nat) : Prop := width = 1 ∧ addr < s.params.bufBytes

/-- A host write to the buffer port; any other width or address is ignored (R57). -/
def State.hostStore (s : State) (width addr : Nat) (data : Byte) : State :=
  if s.bufAccess width addr then { s with buf := s.buf.write addr data } else s

/-- A host read of the buffer port: the byte, a free draw where nothing has written it (R52), or 0 for another
width or address (R57). -/
def State.hostFetch (s : State) (width addr : Nat) : State :=
  if s.bufAccess width addr then
    match s.buf.read addr with
    | some b => s.reply (.byte b)
    | none => { s with draws := s.draws + 1 }.reply (.byte (Config.freeByte s.draws))
  else s.reply (.byte 0)

/-- A read of STATUS, the one access allowed while BUSY = 1 (R240). -/
def HostOp.isStatusRead : HostOp → Bool
  | .readReg width offset => width == 4 && offset == 0x04
  | .writeReg _ _ _ => false
  | .writeBuf _ _ _ => false
  | .readBuf _ _ => false
  | .reset => false

/-- What one access of the host does (R250). -/
def hostEffect (op : HostOp) (s : State) : Result :=
  match op with
  | .writeReg width offset data => writeReg width offset data s
  | .readReg width offset => .next (s.reply (.word (s.readReg width offset)))
  | .writeBuf width addr data => .next (s.hostStore width addr data)
  | .readBuf width addr => .next (s.hostFetch width addr)
  | .reset => .next s.hardReset

/-- One access of the host. While BUSY = 1 the model has no move but a STATUS read (R205, R231, R240). -/
def hostMove (op : HostOp) (s : State) : Result :=
  if s.status.busy = true ∧ op.isStatusRead = false then .refused .hostDuty else hostEffect op s

end Sys2Proof.Machine
end

