-- ==== Sys2Proof/Machine/Step.lean ====
section
/-! DEFINITION. One step of the machine: the oldest access the host has not performed yet is performed. A command
is the word of a CMD write (spec/10_state.md rules R21, R24), so this is also where a command is fetched. -/

namespace Sys2Proof.Machine

/-- One step. With no access of the host outstanding the core is idle, and all state survives (R216, R230). -/
def step (s : State) : Host.Outcome State Fault Refusal :=
  match s.pending with
  | [] => .next s
  | op :: rest => hostMove op { s with pending := rest }

/-- The state whose next step is the CMD write of an opcode-table word (log entry 2). -/
def State.withFetchWord (s : State) (nbits w : Nat) : State :=
  { s with pending := .writeReg 4 0x00 (tableWord nbits w) :: s.pending }

end Sys2Proof.Machine
end

