-- ==== Sys2Proof/Safety.lean ====
section
/-! DEFINITION. The terms claims use: the invariant of every state between commands (spec/10_state.md rules R33,
R37, R38), a safe end of a run (spec/70_reset_and_hazards.md rule R249), what BUF holds, where a command stores,
the order of errors (spec/60_exceptions.md rule R202), what a host can observe, and MD5 of a whole message. -/

namespace Sys2Proof.Machine

/-- The claim's premise of R204 and R249: STATUS.ERR = 0. -/
def State.errorFree (s : State) : Prop := s.status.err = false

/-- A slot between commands. A stream's counter and its pending length agree modulo 512 bits (R33); INITIALIZED
is the IV with nothing pending (R124); a slot without a stream is zero (R37, R38), except that POINTER_SIZED
leaves a finalised one open. -/
def Slot.Inv (mode : Config.ScrubMode) (x : Slot) : Prop :=
  match x.life with
  | .uninit       => x.ctx = Context.zero
  | .initialized  => x.ctx = md5Init
  | .accumulating => x.ctx.count.toNat % 512 = 8 * x.ctx.plen.val
  | .finalized    => mode = .full → x.ctx = Context.zero

/-- The state between commands. -/
structure State.Inv (s : State) : Prop where
  /-- The parameters have legal values (R7). -/
  params : s.params.Legal
  /-- There are `NUM_CTX` slots (R31). -/
  slotCount : s.ctx.length = s.params.numCtx
  /-- Every slot keeps its own invariant (R33, R37, R38). -/
  slots : ∀ x ∈ s.ctx, x.Inv s.params.scrubMode
  /-- BUF is in its canonical form. -/
  bufWf : s.buf.Wf
  /-- BUF has the addresses 0 to `BUF_BYTES - 1` (R50). -/
  bufBound : ∀ cell ∈ s.buf, cell.1 < s.params.bufBytes
  /-- No command is executing (R28). -/
  idle : s.status.busy = false
  /-- ERRCODE is NONE exactly while ERR is 0 (R26, R29). -/
  errcode : s.status.err = false ↔ s.status.errcode = .none
  /-- No working state of APR1_ENCODE exists (R35, R38). -/
  apr1 : s.apr1 = none

/-- The state a failing command leaves when ERR was 0: ERR and ERRCODE are set, and nothing else changes (R203). -/
def State.failed (s : State) (e : ErrorCode) : State :=
  { s with status := { s.status with err := true, errcode := e } }

/-- The host's oldest outstanding access is `op`, `rest` waits behind it, and no command is executing: the move a
host that keeps its duty can make (R233, R240). -/
def State.Offers (s : State) (op : HostOp) (rest : List HostOp) : Prop :=
  s.pending = op :: rest ∧ s.status.busy = false

/-- BUF holds the byte string `bs` from address `a` on: every one of its bytes has been written. -/
def Memory.Holds (m : Memory) (a : Nat) (bs : List Byte) : Prop :=
  ∀ k, k < bs.length → m.read (a + k) = bs[k]?

/-- The text operand `(a, len)` is `bs`: no 0x00 in it, and it ends at its length or at a 0x00 (R160). -/
def Memory.HoldsText (m : Memory) (a len : Nat) (bs : List Byte) : Prop :=
  m.Holds a bs ∧ (∀ b ∈ bs, b ≠ 0x00) ∧
    (bs.length = len ∨ (bs.length < len ∧ m.read (a + bs.length) = some 0x00))

/-- The BUF range a command writes, as address and width (R59, R74, R176); `salt` matters to APR1_ENCODE only. -/
def storeRange (k : Instr) (s : State) (salt : List Byte) : Nat × Nat :=
  match k with
  | .md5Init _   => (0, 0)
  | .md5Update _ => (0, 0)
  | .md5Final _  => (s.a4, Config.digestBytes)
  | .md5Digest _ => (s.a4, Config.digestBytes)
  | .to64        => (s.a4, s.a1)
  | .apr1Encode  => (s.a4, copyWidth s.a5 (apr1Length salt))
  | .sreset      => (0, 0)

/-- The first error that applies, written line by line from R202 over all commands at once; `salt` is the salt of
APR1_ENCODE. -/
def firstError (k : Instr) (s : State) (salt : List Byte) : ErrorCode :=
  let c := k.slot?.getD 0
  let n := s.params.bufBytes
  let W := if s.a5 = 0 then 0 else min (s.a5 - 1) (29 + salt.length) + 1
  if k ∈ [.md5Init c, .md5Update c, .md5Final c, .md5Digest c] ∧ c ≥ s.params.numCtx then .ctxRange
  else if k = .to64 ∧ s.a1 > 6 then .badArg
  else if k ∈ [.md5Update c, .md5Digest c] ∧ s.a0 + s.a1 > n then .bounds
  else if k ∈ [.md5Final c, .md5Digest c] ∧ s.a4 + 16 > n then .bounds
  else if k = .to64 ∧ s.a4 + s.a1 > n then .bounds
  else if k = .apr1Encode ∧ (s.a0 + s.a1 > n ∨ s.a2 + s.a3 > n) then .bounds
  else if k = .apr1Encode ∧ s.a4 + W > n then .bounds
  else if k ∈ [.md5Update c, .md5Final c] ∧ (s.slot c).life ∈ [.uninit, .finalized] then .ctxState
  else .none

/-- The part of a context that some rule reads: `pend` beyond `plen` is blanked (R31). -/
def Context.meaningful (x : Context) : Context :=
  { x with pend := Vector.ofFn fun i => if i < x.plen then x.pend[i] else 0 }

/-- The part of a slot that some rule reads: a slot without a stream has nothing but its lifecycle (R37). -/
def Slot.visible (x : Slot) : Slot :=
  if x.life.live then { x with ctx := x.ctx.meaningful } else { x with ctx := Context.zero }

/-- A state without what no host can observe: the hidden parts of slots, and the parameters SCRUB_MODE,
PLATFORM_BASE and RESET_PROTOCOL (R34, R37, R61, R230). -/
def State.visible (s : State) : State :=
  { s with
    ctx    := s.ctx.map Slot.visible
    params := { s.params with
      scrubMode     := .full
      regBase       := 0
      bufBase       := 0
      resetProtocol := .synchronous 0 } }

/-- An outcome with its next state, if there is one, passed through `f`. -/
def onNext (f : State → State) (r : Result) : Result :=
  match r with
  | .next s    => .next (f s)
  | .fault e   => .fault e
  | .refused e => .refused e

/-- The 64-byte blocks of a byte string whose length is a multiple of 64, given how many there are. -/
def blocksOf : Nat → List Byte → List (Vector Byte 64)
  | 0, _ => []
  | n + 1, m => Vector.ofFn (fun i => m.getD i.val 0) :: blocksOf n (m.drop 64)

/-- The whole padded message: 0x80, zero bytes until the length is 56 modulo 64, and the bit length (R127). -/
def paddedMessage (m : List Byte) : List Byte :=
  m ++ [0x80] ++ List.replicate ((119 - m.length % 64) % 64) 0x00 ++ le64 (BitVec.ofNat 64 (8 * m.length))

/-- MD5 of a whole message without a streaming context: compress the blocks of the padded message in order,
starting from the IV (R2, R12). -/
def md5Whole (m : List Byte) : List Byte :=
  digestOf ((blocksOf ((paddedMessage m).length / 64) (paddedMessage m)).foldl compress iv)

end Sys2Proof.Machine
end

