-- ==== Sys2Proof/Certificates/Slice0/Obligations.lean ====
section
/-! DEFINITION. The statements for the provers. Each docstring names the rules of spec/ it formalises. -/

open Sys2Proof Sys2Proof.Machine

/-! ### Encoding -/

/-- Decode and encode are inverse on well-formed commands: no word is dropped or read as another command
(R70, R72, R75). -/
def Obligations.DecodeInvertsEncode : Prop :=
  ∀ (w : Word) (i : Instr), decode w = .ok i ↔ i.wellFormed = true ∧ encode i = w

/-- R72: the table's words and masks; at most one row matches a word; the row that matches is the command decoded,
with its slot number in bits 7:4; a word that no row matches is illegal. -/
def Obligations.WordSelectsAtMostOneRow : Prop :=
  opcodeTable.map (fun r => (r.pattern, r.mask, r.command 0)) =
    [ (0x00000001, 0xFFFFFF0F, .md5Init 0), (0x00000002, 0xFFFFFF0F, .md5Update 0),
      (0x00000003, 0xFFFFFF0F, .md5Final 0), (0x00000004, 0xFFFFFF0F, .md5Digest 0),
      (0x00000005, 0xFFFFFFFF, .to64), (0x00000006, 0xFFFFFFFF, .apr1Encode),
      (0x0000000F, 0xFFFFFFFF, .sreset) ] ∧
  ∀ w : Word,
    (opcodeTable.filter (fun r => decide (w &&& r.mask = r.pattern))).length ≤ 1 ∧
    (∀ i, decode w = .ok i ↔
      ∃ r ∈ opcodeTable, w &&& r.mask = r.pattern ∧ i = r.command ((w >>> 4) &&& 0xF).toNat) ∧
    ((∀ r ∈ opcodeTable, w &&& r.mask ≠ r.pattern) → ∃ e, decode w = .error e)

/-- Words of every family written out from the patterns of R72, and one word for each kind of illegal word (R77). -/
def Obligations.SpecWordsDecode : Prop :=
  decode 0b00000000000000000000000000000001 = .ok (.md5Init 0) ∧
  decode 0b00000000000000000000000000110001 = .ok (.md5Init 3) ∧
  decode 0b00000000000000000000000000010010 = .ok (.md5Update 1) ∧
  decode 0b00000000000000000000000010000011 = .ok (.md5Final 8) ∧
  decode 0b00000000000000000000000011110100 = .ok (.md5Digest 15) ∧
  decode 0b00000000000000000000000000000101 = .ok .to64 ∧
  decode 0b00000000000000000000000000000110 = .ok .apr1Encode ∧
  decode 0b00000000000000000000000000001111 = .ok .sreset ∧
  decode 0x00000000 = .error .illegalOp ∧
  decode 0x0000000E = .error .illegalOp ∧
  decode 0x00000101 = .error .reservedBits ∧
  decode 0x00000015 = .error .ctxNotZero

/-- R77: exactly the words with OP 0x0 or 0x7 to 0xE, with a reserved bit set, or with CTX not 0 under OP 0x5, 0x6 or
0xF are illegal, and an illegal word written to CMD changes only CMD and STATUS, to ILLEGAL_CMD. The queue of the
host's accesses, and that a step takes the oldest, are the model's choice (log entry 2). -/
def Obligations.IllegalWordRaisesIllegalCmd : Prop :=
  ∀ w : Word,
    ((∃ e, decode w = .error e) ↔
      (w >>> 8 ≠ 0 ∨ w &&& 0xF = 0 ∨ (7 ≤ (w &&& 0xF).toNat ∧ (w &&& 0xF).toNat ≤ 0xE) ∨
        ((w >>> 4) &&& 0xF ≠ 0 ∧ (w &&& 0xF = 5 ∨ w &&& 0xF = 6 ∨ w &&& 0xF = 0xF)))) ∧
    ∀ s rest, s.Offers (.writeReg 4 0x00 w) rest → s.status.err = false → (∃ e, decode w = .error e) →
      step s = .next { s with pending := rest, cmd := w, status := ⟨false, true, .illegalCmd⟩ }

/-! ### Issue and errors -/

/-- R76: a CMD write whose word decodes to `i` runs `exec i`, with the word in CMD and BUSY = 1 around it, and BUSY =
0 after it. The sticky state lets SRESET's word alone through. The queue of the host's accesses, and that a step takes
the oldest, are the model's choice (log entry 2). -/
def Obligations.StepRunsDecodedCommand : Prop :=
  ∀ s w rest i, s.Offers (.writeReg 4 0x00 w) rest → (s.status.err = false ∨ w = 0x0000000F) →
    decode w = .ok i →
    step s = onNext (fun t => { t with status := { t.status with busy := false } })
      (exec i { s with pending := rest, cmd := w, status := { s.status with busy := true } })

/-- R204: while ERR = 1 a word other than 0x0000000F is stored in CMD and does nothing else; only SRESET or a hardware
reset clears ERR; and ERRCODE keeps the first error's code. The queue of the host's accesses, and that a step takes
the oldest, are the model's choice (log entry 2). -/
def Obligations.StickyErrorIgnoresCommands : Prop :=
  (∀ s w rest, s.Offers (.writeReg 4 0x00 w) rest → s.status.err = true → w ≠ 0x0000000F →
    step s = .next { s with pending := rest, cmd := w }) ∧
  (∀ s t, step s = .next t → s.status.err = true → t.status.err = false →
    ∃ rest, s.pending = .writeReg 4 0x00 0x0000000F :: rest ∨ s.pending = .reset :: rest) ∧
  (∀ s t, step s = .next t → s.status.err = true → t.status.err = true → t.status.errcode = s.status.errcode)

/-- R203: a command for which the check returns a code changes CMD and STATUS only. The queue of the host's accesses,
and that a step takes the oldest, are the model's choice (log entry 2). -/
def Obligations.FailingCommandChangesOnlyStatus : Prop :=
  ∀ s w rest, s.Offers (.writeReg 4 0x00 w) rest → s.status.err = false →
    (∀ i e, decode w = .ok i → check i s = .ok e → e ≠ .none →
      step s = .next { s with pending := rest, cmd := w, status := ⟨false, true, e⟩ }) ∧
    (∀ d, decode w = .error d →
      step s = .next { s with pending := rest, cmd := w, status := ⟨false, true, .illegalCmd⟩ })

/-- R202: a command raises the first error that applies, in the fixed order of the rule (`firstError`), and only
then. For APR1_ENCODE the salt is that of its salt source, which is read only if both input ranges are in
bounds. -/
def Obligations.ErrorsFollowFixedOrder : Prop :=
  ∀ k s salt, s.status.err = false →
    (k = .apr1Encode → s.params.bufBytes < s.a0 + s.a1 ∨ s.params.bufBytes < s.a2 + s.a3 ∨
      ∃ sp, s.buf.HoldsText s.a2 s.a3 sp ∧ salt = saltOf sp) →
    (firstError k s salt ≠ .none → exec k s = .next (s.failed (firstError k s salt))) ∧
    (firstError k s salt = .none → ∀ t, exec k s = .next t → t.status.err = false)

/-! ### What each command does when it completes -/

/-- R130: MD5_INIT loads the IV into its slot in every lifecycle state; CTX_RANGE for a slot there is not; nothing
else lets a finalised slot take in a stream. The queue of the host's accesses, and that a step takes the oldest, are
the model's choice (log entry 2). -/
def Obligations.InitStartsStream : Prop :=
  ∀ c s,
    (∀ t, step s = .next t → (s.slot c).life = .finalized → (t.slot c).life.live = true →
      ∃ w rest, s.pending = .writeReg 4 0x00 w :: rest ∧ decode w = .ok (.md5Init c)) ∧
    (c < 16 → encode (.md5Init c) = 0x00000001 ||| (BitVec.ofNat 32 c <<< 4)) ∧
    (c < s.params.numCtx → exec (.md5Init c) s = .next { s with
      ctx := s.ctx.set c
        ⟨⟨⟨0x67452301, 0xefcdab89, 0x98badcfe, 0x10325476⟩, 0, Vector.replicate 64 0, 0⟩, .initialized⟩
      result := 0 }) ∧
    (s.params.numCtx ≤ c → s.status.err = false → exec (.md5Init c) s = .next (s.failed .ctxRange))

/-- R131: MD5_UPDATE of a live slot by an in-bounds range whose bytes are `m`. -/
def Obligations.UpdateAppendsToStream : Prop :=
  ∀ c s m, c < s.params.numCtx → s.a0 + s.a1 ≤ s.params.bufBytes → (s.slot c).life.live = true →
    m.length = s.a1 → s.buf.Holds s.a0 m →
    exec (.md5Update c) s = .next { s with
      ctx    := s.ctx.set c ⟨md5Update (s.slot c).ctx m, .accumulating⟩
      result := 0 }

/-- R132: MD5_FINAL of a live slot writes its 16-byte digest, and leaves the slot FINALIZED and, under the spec's
SCRUB_MODE, zero. Under POINTER_SIZED nothing is said of the slot's contents (log entry 5). -/
def Obligations.FinalWritesDigest : Prop :=
  ∀ c s, c < s.params.numCtx → s.a4 + 16 ≤ s.params.bufBytes → (s.slot c).life.live = true →
    ∃ z, (s.params.scrubMode = .full → z = Context.zero) ∧
      exec (.md5Final c) s = .next { s with
        buf    := s.buf.writeBytes s.a4 (md5Digest (s.slot c).ctx)
        ctx    := s.ctx.set c ⟨z, .finalized⟩
        result := 16 }

/-- R133: MD5_DIGEST of a range whose bytes are `m` writes the MD5 of `m`, whatever the slot held; the input may
overlap the output, since `m` is what BUF held before. Under POINTER_SIZED nothing is said of the slot's contents (log
entry 5). -/
def Obligations.DigestHashesRange : Prop :=
  ∀ c s m, c < s.params.numCtx → s.a0 + s.a1 ≤ s.params.bufBytes → s.a4 + 16 ≤ s.params.bufBytes →
    m.length = s.a1 → s.buf.Holds s.a0 m →
    ∃ z, (s.params.scrubMode = .full → z = Context.zero) ∧
      exec (.md5Digest c) s = .next { s with
        buf    := s.buf.writeBytes s.a4 (md5 m)
        ctx    := s.ctx.set c ⟨z, .finalized⟩
        result := 16 }

/-- R153: TO64 writes `n ≤ 6` characters and no terminator; BAD_ARG before BOUNDS; the rule's corner cases. -/
def Obligations.To64WritesCharacters : Prop :=
  encode .to64 = 0x00000005 ∧ (∀ w, decode w = .ok .to64 ↔ w = 0x00000005) ∧
  (∀ s, s.a1 ≤ 6 → s.a4 + s.a1 ≤ s.params.bufBytes →
    exec .to64 s = .next { s with
      buf    := s.buf.writeBytes s.a4 (to64 s.arg0.toNat s.arg1.toNat)
      result := s.arg1 }) ∧
  (∀ s, s.status.err = false → 6 < s.a1 → exec .to64 s = .next (s.failed .badArg)) ∧
  (∀ s, s.status.err = false → s.a1 ≤ 6 → s.params.bufBytes < s.a4 + s.a1 →
    exec .to64 s = .next (s.failed .bounds)) ∧
  (∀ v : Word, ∃ u, (to64 v.toNat 6)[5]? = some u ∧ u = alphaChar (v >>> 30).toNat ∧
    u ∈ ([0x2E, 0x2F, 0x30, 0x31] : List Byte)) ∧
  (∀ v w : Word, to64 v.toNat 6 = to64 w.toNat 6 → v = w) ∧
  to64 0x00ABCDEF 4 = [0x6A, 0x72, 0x77, 0x65]

/-- R177, R176: APR1_ENCODE of a password text and a salt-source text writes as much of the encoded string as fits
and a terminating 0x00, and nothing for capacity 0. No slot changes. -/
def Obligations.Apr1EncodeWritesString : Prop :=
  ∀ s pw sp, s.a0 + s.a1 ≤ s.params.bufBytes → s.a2 + s.a3 ≤ s.params.bufBytes →
    s.buf.HoldsText s.a0 s.a1 pw → s.buf.HoldsText s.a2 s.a3 sp →
    (let S := apr1String s.params.mixLiteral pw sp
     let k := if s.a5 = 0 then 0 else min (s.a5 - 1) S.length
     let out := if s.a5 = 0 then [] else S.take k ++ [0x00]
     s.a4 + out.length ≤ s.params.bufBytes →
     exec .apr1Encode s = .next { s with
       buf    := s.buf.writeBytes s.a4 out
       result := BitVec.ofNat 32 k
       apr1   := none })

/-- R190: SRESET clears STATUS, RESULT and every slot, in every state; the arguments, BUF and CMD keep their values;
it differs from a hardware reset in those three things only. No other word is SRESET, and while ERR = 1 any other word
only stands in CMD. The queue of the host's accesses, and that a step takes the oldest, are the model's choice (log
entry 2). That the reset input, with which it is compared, keeps the queue, the replies and the draws is the model's
choice too (log entry 11). -/
def Obligations.SresetClearsErrorsAndSlots : Prop :=
  encode .sreset = 0x0000000F ∧ (∀ w, decode w = .ok .sreset ↔ w = 0x0000000F) ∧
  (∀ s w rest, s.Offers (.writeReg 4 0x00 w) rest → s.status.err = true → w ≠ 0x0000000F →
    step s = .next { s with pending := rest, cmd := w }) ∧
  ∀ s,
    exec .sreset s = .next { s with
      status := ⟨false, false, .none⟩
      result := 0
      ctx    := List.replicate s.params.numCtx ⟨⟨⟨0, 0, 0, 0⟩, 0, Vector.replicate 64 0, 0⟩, .uninit⟩
      apr1   := none } ∧
    (∀ rest, s.Offers (.writeReg 4 0x00 0x0000000F) rest →
      ∃ t u, step s = .next t ∧ step { s with pending := .reset :: rest } = .next u ∧
        t = { u with
          cmd := 0x0000000F, buf := s.buf, arg0 := s.arg0, arg1 := s.arg1, arg2 := s.arg2,
          arg3 := s.arg3, arg4 := s.arg4, arg5 := s.arg5 })

/-- R52, R205: a command that reads a byte nothing has written ends in BUF_UNWRITTEN, at such a byte of its operand
range. The address the fault names, and the order of APR1_ENCODE's reads, are the model's (log entries 7 and 8). -/
def Obligations.UnwrittenByteFaults : Prop :=
  (∀ c s, c < s.params.numCtx → s.a0 + s.a1 ≤ s.params.bufBytes → (s.slot c).life.live = true →
    (∃ k, k < s.a1 ∧ s.buf.read (s.a0 + k) = none) →
    ∃ x, exec (.md5Update c) s = .fault (.bufUnwritten x) ∧
      s.a0 ≤ x ∧ x < s.a0 + s.a1 ∧ s.buf.read x = none) ∧
  (∀ c s, c < s.params.numCtx → s.a0 + s.a1 ≤ s.params.bufBytes → s.a4 + 16 ≤ s.params.bufBytes →
    (∃ k, k < s.a1 ∧ s.buf.read (s.a0 + k) = none) →
    ∃ x, exec (.md5Digest c) s = .fault (.bufUnwritten x) ∧
      s.a0 ≤ x ∧ x < s.a0 + s.a1 ∧ s.buf.read x = none) ∧
  (∀ s, s.a0 + s.a1 ≤ s.params.bufBytes → s.a2 + s.a3 ≤ s.params.bufBytes →
    (∀ sp, ¬ s.buf.HoldsText s.a2 s.a3 sp) →
    ∃ x, exec .apr1Encode s = .fault (.bufUnwritten x) ∧
      s.a2 ≤ x ∧ x < s.a2 + s.a3 ∧ s.buf.read x = none) ∧
  (∀ s sp, s.a0 + s.a1 ≤ s.params.bufBytes → s.a2 + s.a3 ≤ s.params.bufBytes →
    s.buf.HoldsText s.a2 s.a3 sp → s.a4 + copyWidth s.a5 (29 + (saltOf sp).length) ≤ s.params.bufBytes →
    (∀ pw, ¬ s.buf.HoldsText s.a0 s.a1 pw) →
    ∃ x, exec .apr1Encode s = .fault (.bufUnwritten x) ∧
      s.a0 ≤ x ∧ x < s.a0 + s.a1 ∧ s.buf.read x = none)

/-! ### Frames -/

/-- R22, R25, R203: no command writes an argument register, CMD or a parameter, or moves the host's queue; and RESULT
and STATUS together tell an error from a success: an error writes STATUS alone. The last three fields are the model's
own (log entries 2 to 4). -/
def Obligations.CommandsKeepRegisters : Prop :=
  ∀ i s t, exec i s = .next t →
    t.params = s.params ∧ t.cmd = s.cmd ∧
    t.arg0 = s.arg0 ∧ t.arg1 = s.arg1 ∧ t.arg2 = s.arg2 ∧
    t.arg3 = s.arg3 ∧ t.arg4 = s.arg4 ∧ t.arg5 = s.arg5 ∧
    t.pending = s.pending ∧ t.replies = s.replies ∧ t.draws = s.draws ∧
    (i = .sreset ∨ t.status = s.status ∨ t = { s with status := t.status })

/-- R59, R74, R203: a command changes no byte of BUF outside the range it stores to; MD5_INIT, MD5_UPDATE and SRESET
change none. The range of APR1_ENCODE is computed from its salt source. -/
def Obligations.CommandsStoreOnlyToTheirRange : Prop :=
  ∀ i s t x, exec i s = .next t →
    (∀ salt, (i = .apr1Encode → ∃ sp, s.buf.HoldsText s.a2 s.a3 sp ∧ salt = saltOf sp) →
      x < (storeRange i s salt).1 ∨ (storeRange i s salt).1 + (storeRange i s salt).2 ≤ x) →
    t.buf.read x = s.buf.read x

/-- R34, R35: a command other than SRESET changes no slot but the one it names; TO64 and APR1_ENCODE change none. -/
def Obligations.CommandsKeepOtherSlots : Prop :=
  ∀ i s t d, i ≠ .sreset → exec i s = .next t → i.slot? ≠ some d → t.ctx[d]? = s.ctx[d]?

/-- R34, R35: a command other than SRESET reads no slot but the one it names. With any other contents in the other
slots it answers the same, and those contents stay. -/
def Obligations.CommandsIgnoreOtherSlots : Prop :=
  ∀ i s ctx', i ≠ .sreset → ctx'.length = s.ctx.length → (∀ c, i.slot? = some c → ctx'[c]? = s.ctx[c]?) →
    exec i { s with ctx := ctx' } =
      onNext (fun t => { t with ctx := match i.slot? with
        | some c => ctx'.set c (t.slot c)
        | none   => ctx' }) (exec i s)

/-- R34, R37: what a slot without a stream holds, the stale bytes of `pend`, SCRUB_MODE, PLATFORM_BASE and
RESET_PROTOCOL are not observable: two states that agree on the rest answer alike for any number of steps. -/
def Obligations.HiddenStateIsUnobservable : Prop :=
  ∀ s t : State, s.visible = t.visible → ∀ n : Nat,
    onNext State.visible (Sys2Proof.core.run n s) = onNext State.visible (Sys2Proof.core.run n t)

/-! ### Invariants and whole-machine rules -/

/-- R38, R230: the invariant holds after a reset with any legal parameters. -/
def Obligations.ResetSatisfiesInvariant : Prop :=
  State.reset.Inv ∧ ∀ p : Config.Params, p.Legal → (State.resetWith p).Inv

/-- R31, R33, R37, R28, R26: every step keeps the invariant, and no step changes a parameter. -/
def Obligations.StepKeepsInvariant : Prop :=
  ∀ s t, s.Inv → step s = .next t → t.Inv ∧ t.params = s.params

/-- R32: a slot's lifecycle moves only by the transitions of the rule, each by its command. The queue of the host's
accesses, and that a step takes the oldest, are the model's choice (log entry 2). -/
def Obligations.LifecycleMovesOnlyByItsCommands : Prop :=
  ∀ s t c, step s = .next t → (t.slot c).life ≠ (s.slot c).life →
    (∃ rest, s.pending = .reset :: rest ∧ (t.slot c).life = .uninit) ∨
    (∃ w i rest, s.pending = .writeReg 4 0x00 w :: rest ∧ decode w = .ok i ∧
      match (t.slot c).life with
      | .uninit       => i = .sreset
      | .initialized  => i = .md5Init c
      | .accumulating => i = .md5Update c ∧ (s.slot c).life = .initialized
      | .finalized    => (i = .md5Final c ∧ (s.slot c).life.live = true) ∨ i = .md5Digest c)

/-! ### The host's ports and reset -/

/-- R23, R57, R60: a register read gets the register's value at its offset, and 0 at every other offset or width; it
changes nothing else. The queue and the replies are the model's choice (log entries 2 and 3), and so is what an offset
past 0xFF does (log entry 9). -/
def Obligations.HostRegisterRead : Prop :=
  ∀ s width offset rest, s.Offers (.readReg width offset) rest →
    ∃ v, step s = .next { s with pending := rest, replies := .word v :: s.replies } ∧
      (width = 4 →
        (offset = 0x00 → v = s.cmd) ∧ (offset = 0x04 → v = s.status.word) ∧ (offset = 0x08 → v = s.result) ∧
        (offset = 0x10 → v = s.arg0) ∧ (offset = 0x14 → v = s.arg1) ∧ (offset = 0x18 → v = s.arg2) ∧
        (offset = 0x1C → v = s.arg3) ∧ (offset = 0x20 → v = s.arg4) ∧ (offset = 0x24 → v = s.arg5)) ∧
      (width ≠ 4 ∨ offset ∉ [0x00, 0x04, 0x08, 0x10, 0x14, 0x18, 0x1C, 0x20, 0x24] → v = 0)

/-- R23, R25, R57: a register write stores an argument register at its offset; at every offset that is neither CMD nor
an argument register, and for every other width, it is ignored. The queue is the model's choice (log entry 2), and so
is what an offset past 0xFF does (log entry 9). -/
def Obligations.HostRegisterWrite : Prop :=
  ∀ s width offset data rest, s.Offers (.writeReg width offset data) rest →
    (width = 4 →
      (offset = 0x10 → step s = .next { s with pending := rest, arg0 := data }) ∧
      (offset = 0x14 → step s = .next { s with pending := rest, arg1 := data }) ∧
      (offset = 0x18 → step s = .next { s with pending := rest, arg2 := data }) ∧
      (offset = 0x1C → step s = .next { s with pending := rest, arg3 := data }) ∧
      (offset = 0x20 → step s = .next { s with pending := rest, arg4 := data }) ∧
      (offset = 0x24 → step s = .next { s with pending := rest, arg5 := data })) ∧
    (width ≠ 4 ∨ offset ∉ [0x00, 0x10, 0x14, 0x18, 0x1C, 0x20, 0x24] →
      step s = .next { s with pending := rest })

/-- R57, R60, R52: the buffer port. A byte write inside BUF changes that byte only; a byte read gets the byte written
last, or a free draw (whatever its value) where there is none; any other access is ignored or reads 0. The queue, the
replies and the counter of draws are the model's choice (log entries 2 to 4). -/
def Obligations.HostBufferPort : Prop :=
  (∀ s width addr data rest, s.Offers (.writeBuf width addr data) rest →
    ∃ m, step s = .next { s with pending := rest, buf := m } ∧
      ∀ x, m.read x =
        if x = addr ∧ width = 1 ∧ addr < s.params.bufBytes then some data else s.buf.read x) ∧
  (∀ s width addr rest, s.Offers (.readBuf width addr) rest →
    ∃ b n, step s = .next { s with pending := rest, replies := .byte b :: s.replies, draws := s.draws + n } ∧
      (width = 1 → addr < s.params.bufBytes →
        (∀ v, s.buf.read addr = some v → b = v ∧ n = 0) ∧
        (s.buf.read addr = none → b = Config.freeByte s.draws ∧ n = 1)) ∧
      (width ≠ 1 ∨ s.params.bufBytes ≤ addr → b = 0 ∧ n = 0))

/-- R26, R201: the bits of the STATUS word, and the codes. -/
def Obligations.StatusWordLayout : Prop :=
  (∀ st : Status,
    st.word.getLsbD 0 = st.busy ∧ st.word.getLsbD 1 = st.err ∧
    (∀ j, 2 ≤ j → j < 8 → st.word.getLsbD j = false) ∧
    (∀ j, j < 8 → st.word.getLsbD (8 + j) = st.errcode.code.getLsbD j) ∧
    (∀ j, 16 ≤ j → st.word.getLsbD j = false)) ∧
  ErrorCode.none.code = 0x00 ∧ ErrorCode.illegalCmd.code = 0x01 ∧ ErrorCode.ctxRange.code = 0x02 ∧
  ErrorCode.badArg.code = 0x03 ∧ ErrorCode.bounds.code = 0x04 ∧ ErrorCode.ctxState.code = 0x05

/-- R230, R38: the reset input sets every piece of the core's state to its reset value; no BUF byte holds a value.
That the queue, the replies and the draws stay is the model's choice (log entry 11). -/
def Obligations.HardwareResetValues : Prop :=
  ∀ s rest, s.Offers .reset rest →
    ∃ t, step s = .next t ∧
      t.cmd = 0 ∧ t.status.word = 0 ∧ t.result = 0 ∧
      t.arg0 = 0 ∧ t.arg1 = 0 ∧ t.arg2 = 0 ∧ t.arg3 = 0 ∧ t.arg4 = 0 ∧ t.arg5 = 0 ∧
      t.ctx = List.replicate s.params.numCtx ⟨⟨⟨0, 0, 0, 0⟩, 0, Vector.replicate 64 0, 0⟩, .uninit⟩ ∧
      (∀ a, t.buf.read a = none) ∧ t.apr1 = none ∧
      t.params = s.params ∧ t.pending = rest ∧ t.replies = s.replies ∧ t.draws = s.draws

/-- R205, R231, R240: while BUSY = 1 the model has no move for the host but a read of STATUS. That a state can hold
BUSY = 1, and the refusal's name, are the model's choice (log entry 6). -/
def Obligations.BusyCoreTakesOnlyStatusReads : Prop :=
  ∀ s op rest, s.pending = op :: rest → s.status.busy = true →
    (op = .readReg 4 0x04 →
      step s = .next { s with pending := rest, replies := .word s.status.word :: s.replies }) ∧
    (op ≠ .readReg 4 0x04 → step s = .refused .hostDuty)

/-- R216, R230: with no access of the host outstanding the core waits, and all state survives. The queue of the host's
accesses, and that a step takes the oldest, are the model's choice (log entry 2). -/
def Obligations.IdleCoreWaits : Prop :=
  ∀ s : State, s.pending = [] → step s = .next s

/-! ### Word codec and digest engine -/

/-- R103: the codec laws. -/
def Obligations.CodecLaws : Prop :=
  (∀ w : Word, ∃ s0 s1 s2 s3, le32 w = [s0, s1, s2, s3] ∧ unle32 s0 s1 s2 s3 = w) ∧
  (∀ s0 s1 s2 s3 : Byte, le32 (unle32 s0 s1 s2 s3) = [s0, s1, s2, s3]) ∧
  (∀ ws : List Word, decodeWords (encodeWords ws) = ws) ∧
  (∀ s : List Byte, s.length % 4 = 0 → encodeWords (decodeWords s) = s)

/-- R100, R101, R104: byte `k` of a word, of four bytes read as a word, and of a 64-bit value; the rules' examples. -/
def Obligations.LittleEndianBytes : Prop :=
  (∀ w : Word, (le32 w).length = 4 ∧ ∀ k, k < 4 → (le32 w)[k]? = some (BitVec.ofNat 8 (w.toNat / 256 ^ k))) ∧
  (∀ s0 s1 s2 s3 : Byte, (unle32 s0 s1 s2 s3).toNat =
    s0.toNat + 256 * s1.toNat + 256 ^ 2 * s2.toNat + 256 ^ 3 * s3.toNat) ∧
  (∀ v : BitVec 64,
    (le64 v).length = 8 ∧ ∀ k, k < 8 → (le64 v)[k]? = some (BitVec.ofNat 8 (v.toNat / 256 ^ k))) ∧
  le32 0x67452301 = [0x01, 0x23, 0x45, 0x67] ∧ unle32 0x61 0x62 0x63 0x80 = 0x80636261 ∧
  le64 24 = [0x18, 0, 0, 0, 0, 0, 0, 0]

/-- R111 to R115: each mixing function bit by bit, the steps that use it, and the rules' examples. -/
def Obligations.MixingFunctionsBitwise : Prop :=
  (∀ (x y z : Word) (j : Nat), j < 32 →
    (mixF x y z).getLsbD j = (if x.getLsbD j then y.getLsbD j else z.getLsbD j) ∧
    (mixG x y z).getLsbD j = (if z.getLsbD j then x.getLsbD j else y.getLsbD j) ∧
    (mixH x y z).getLsbD j = (x.getLsbD j ^^ (y.getLsbD j ^^ z.getLsbD j)) ∧
    (mixI x y z).getLsbD j = (y.getLsbD j ^^ (x.getLsbD j || !z.getLsbD j))) ∧
  (∀ i, i < 64 → ∃ r, stepTable[i]? = some r ∧
    r.fn.apply = if i ≤ 15 then mixF else if i ≤ 31 then mixG else if i ≤ 47 then mixH else mixI) ∧
  mixF 0xFFFF0000 0x12345678 0x9ABCDEF0 = 0x1234DEF0 ∧
  mixG 0x12345678 0x9ABCDEF0 0xFFFF0000 = 0x1234DEF0 ∧
  mixH 0xFF00FF00 0x0F0F0F0F 0x00000000 = 0xF00FF00F ∧
  mixI 0 0 0 = 0xFFFFFFFF ∧ mixI 0 0 0xFFFFFFFF = 0x00000000

/-- R117, R118: the rotation amounts and the message-word indices of the step table follow their formulas; each
group uses every message word once, and no rotation is below 4 or above 23. -/
def Obligations.StepTableFollowsFormulas : Prop :=
  stepTable.length = 64 ∧
  (∀ i, i < 64 → ∃ r, stepTable[i]? = some r ∧
    r.kx = (if i < 16 then i else if i < 32 then (1 + 5 * i) % 16
      else if i < 48 then (5 + 3 * i) % 16 else 7 * i % 16) ∧
    some r.sh = (if i < 16 then [7, 12, 17, 22] else if i < 32 then [5, 9, 14, 20]
      else if i < 48 then [4, 11, 16, 23] else [6, 10, 15, 21])[i % 4]? ∧
    4 ≤ r.sh ∧ r.sh ≤ 23) ∧
  (∀ g, g < 4 → ∀ k, k < 16 → (((stepTable.drop (16 * g)).take 16).filter (fun r => r.kx == k)).length = 1)

/-- R121, R120: the compress of the block of "abc", its first step, and step 63 (spec/95_test_vectors.md §2.3). -/
def Obligations.CompressOfAbcBlock : Prop :=
  let block : List Byte := [0x61, 0x62, 0x63, 0x80] ++ List.replicate 52 0 ++ le64 24
  let X := decodeWords block
  (stepTable.take 1).foldl (md5Step X) iv = ⟨0x10325476, 0xd6d117b4, 0xefcdab89, 0x98badcfe⟩ ∧
  stepTable.foldl (md5Step X) iv = ⟨0x310ade8f, 0xc08226b3, 0xe484b9d8, 0x624d8cb2⟩ ∧
  ∀ v : Vector Byte 64, v.toList = block →
    compress iv v = ⟨0x98500190, 0xb04fd23c, 0x7d3f96d6, 0x727fe128⟩

/-- R126: chunking invariance, and its consequences for a stream started by `md5_init`: how many blocks have been
compressed, how many bytes are pending, and the bit count. -/
def Obligations.ChunkingInvariance : Prop :=
  (∀ ctx m1 m2, md5Update (md5Update ctx m1) m2 = md5Update ctx (m1 ++ m2)) ∧
  (∀ chunks : List (List Byte),
    let m := chunks.flatten
    let ctx := chunks.foldl md5Update md5Init
    ctx.acc = (blocksOf (m.length / 64) m).foldl compress iv ∧
    ctx.plen.val = m.length % 64 ∧
    ctx.count.toNat = 8 * m.length % 2 ^ 64)

/-- R127: the padding's length and bytes; finalisation compresses one more block or two, ends on a block boundary, and
does not count the padding; the rule's corners. -/
def Obligations.PaddingFillsBlocks : Prop :=
  (∀ L, L < 64 → ∀ count,
    1 ≤ padLength L ∧ padLength L ≤ 64 ∧
    (pad L count).length = padLength L + 8 ∧
    L + padLength L + 8 = (if L ≤ 55 then 64 else 128) ∧
    (pad L count)[0]? = some 0x80 ∧
    (∀ k, 1 ≤ k → k < padLength L → (pad L count)[k]? = some 0x00) ∧
    (pad L count).drop (padLength L) = le64 count) ∧
  (∀ ctx : Context,
    (md5Padded ctx).acc =
      (blocksOf (if ctx.plen.val ≤ 55 then 1 else 2)
        (ctx.pend.toList.take ctx.plen.val ++ pad ctx.plen.val ctx.count)).foldl compress ctx.acc ∧
    (md5Padded ctx).plen = 0 ∧ (md5Padded ctx).count = ctx.count) ∧
  padLength 55 = 1 ∧ padLength 56 = 64 ∧ padLength 0 = 56 ∧ padLength 63 = 57

/-- R129, R127, R12, R248: the streaming engine computes MD5 of the whole message, however the message is cut into
updates, and compresses `blocks(N)` blocks for it. -/
def Obligations.StreamedDigestIsWholeMessageMd5 : Prop :=
  (∀ chunks : List (List Byte), md5Digest (chunks.foldl md5Update md5Init) = md5Whole chunks.flatten) ∧
  (∀ m : List Byte, (paddedMessage m).length =
    64 * (m.length / 64 + if m.length % 64 ≤ 55 then 1 else 2))

/-- R79: MD5_DIGEST has the effect of MD5_INIT, MD5_UPDATE and MD5_FINAL where those raise no error; where the digest
does not fit, it leaves the slot as it was, which the sequence does not. -/
def Obligations.OneShotEqualsStream : Prop :=
  ∀ c s s1 s2, s.status.err = false →
    exec (.md5Init c) s = .next s1 → exec (.md5Update c) s1 = .next s2 → s2.status.err = false →
    (∀ s3, exec (.md5Final c) s2 = .next s3 → s3.status.err = false → exec (.md5Digest c) s = .next s3) ∧
    (s.params.bufBytes < s.a4 + 16 →
      exec (.md5Digest c) s = .next (s.failed .bounds) ∧ exec (.md5Final c) s2 = .next (s2.failed .bounds) ∧
      (s2.slot c).life = .accumulating)

/-- The source's four digests (spec/95_test_vectors.md §1.1): the empty message, "a", "abc" and "message digest". -/
def Obligations.SourceDigests : Prop :=
  md5 [] =
    [0xd4, 0x1d, 0x8c, 0xd9, 0x8f, 0x00, 0xb2, 0x04, 0xe9, 0x80, 0x09, 0x98, 0xec, 0xf8, 0x42, 0x7e] ∧
  md5 [0x61] =
    [0x0c, 0xc1, 0x75, 0xb9, 0xc0, 0xf1, 0xb6, 0xa8, 0x31, 0xc3, 0x99, 0xe2, 0x69, 0x77, 0x26, 0x61] ∧
  md5 [0x61, 0x62, 0x63] =
    [0x90, 0x01, 0x50, 0x98, 0x3c, 0xd2, 0x4f, 0xb0, 0xd6, 0x96, 0x3f, 0x7d, 0x28, 0xe1, 0x7f, 0x72] ∧
  md5 [0x6d, 0x65, 0x73, 0x73, 0x61, 0x67, 0x65, 0x20, 0x64, 0x69, 0x67, 0x65, 0x73, 0x74] =
    [0xf9, 0x6b, 0x69, 0x7d, 0x7c, 0xb7, 0x93, 0x8d, 0x52, 0x5a, 0x2f, 0x31, 0xaa, 0xf1, 0x61, 0xd0]

/-! ### to64 -/

/-- R152: the five properties of `to64`. -/
def Obligations.To64Properties : Prop :=
  (∀ v n, to64 v n = to64 (v % 2 ^ (6 * n)) n) ∧
  (∀ v n, (to64 v n).length = n ∧ ∀ j, j < n → (to64 v n)[j]? = some (alphaChar (v / 2 ^ (6 * j) % 64))) ∧
  (∀ v n, v < 2 ^ (6 * n) → (to64 v n).foldr (fun b acc => alpha.idxOf b + 64 * acc) 0 = v) ∧
  (∀ v, to64 v 0 = []) ∧
  (∀ v n k, k ≤ n → v < 2 ^ (6 * k) → to64 v n = to64 v k ++ List.replicate (n - k) 0x2E)

/-- R150: the 64 characters of the alphabet. -/
def Obligations.AlphabetRanges : Prop :=
  alpha.length = 64 ∧
  ∀ v, v < 64 → alphaChar v =
    if v ≤ 11 then BitVec.ofNat 8 (0x2E + v)
    else if v ≤ 37 then BitVec.ofNat 8 (0x41 + (v - 12))
    else BitVec.ofNat 8 (0x61 + (v - 38))

/-! ### apr1 -/

/-- R162, R163: the salt is what stands, after a marker skipped at most once, before the first `$`, at most 8
bytes of it; the rule's table, its last row through a text operand. -/
def Obligations.SaltExtraction : Prop :=
  (∀ r, skipMagic (magic ++ r) = r) ∧
  (∀ sp, ¬ magic <+: sp → skipMagic sp = sp) ∧
  (∀ sp, saltOf sp <+: skipMagic sp ∧ (saltOf sp).length ≤ 8 ∧ 0x24 ∉ saltOf sp ∧
    (0x00 ∉ sp → 0x00 ∉ saltOf sp) ∧
    ((saltOf sp).length = 8 ∨ (skipMagic sp)[(saltOf sp).length]? = none ∨
      (skipMagic sp)[(saltOf sp).length]? = some 0x24)) ∧
  saltOf [0x24, 0x61, 0x70, 0x72, 0x31, 0x24, 0x61, 0x62, 0x63, 0x64, 0x65, 0x66, 0x67, 0x68, 0x24, 0x48, 0x41,
    0x53, 0x48] = [0x61, 0x62, 0x63, 0x64, 0x65, 0x66, 0x67, 0x68] ∧
  saltOf [0x61, 0x62, 0x63, 0x64, 0x65, 0x66, 0x67, 0x68, 0x69, 0x6A] =
    [0x61, 0x62, 0x63, 0x64, 0x65, 0x66, 0x67, 0x68] ∧
  saltOf [0x61, 0x62, 0x24, 0x63, 0x64] = [0x61, 0x62] ∧
  saltOf [] = [] ∧
  saltOf [0x24, 0x61, 0x70, 0x72, 0x31, 0x24] = [] ∧
  saltOf [0x24, 0x61, 0x70, 0x72, 0x31] = [] ∧
  saltOf [0x24, 0x61, 0x70, 0x72, 0x31, 0x24, 0x24] = [] ∧
  saltOf [0x24, 0x31, 0x24, 0x61, 0x62, 0x63] = [] ∧
  saltOf [0x24, 0x41, 0x50, 0x52, 0x31, 0x24, 0x61, 0x62] = [] ∧
  saltOf [0x24, 0x61, 0x70, 0x72, 0x31, 0x24, 0x24, 0x61, 0x70, 0x72, 0x31, 0x24, 0x78] = [] ∧
  saltOf [0x24, 0x61, 0x70, 0x72, 0x31, 0x24, 0x31, 0x32, 0x33, 0x34, 0x35, 0x36, 0x37, 0x38, 0x39] =
    [0x31, 0x32, 0x33, 0x34, 0x35, 0x36, 0x37, 0x38] ∧
  (∀ m : Memory, m.Holds 0 [0x61, 0x62, 0x00, 0x63, 0x64] →
    ∃ sp, m.text 0 5 = .ok sp ∧ saltOf sp = [0x61, 0x62])

/-- R167: phase 4 feeds exactly `L` bytes, whole copies of the seed and then a part of it. -/
def Obligations.SeedChunksFeedPasswordLength : Prop :=
  ∀ P seed L, seed.length = 16 →
    seedChunks P seed L = md5Update P ((List.replicate (L / 16) seed).flatten ++ seed.take (L % 16)) ∧
    ((List.replicate (L / 16) seed).flatten ++ seed.take (L % 16)).length = L

/-- R168: phase 5 feeds one byte for each bit of `L`, from the lowest to the highest 1 bit, and none for `L = 0`. -/
def Obligations.MixBitsFeedsOneBytePerBit : Prop :=
  ∀ L one zero P,
    mixBits L L one zero P =
      md5Update P ((List.range (if L = 0 then 0 else L.log2 + 1)).map
        (fun j => if L.testBit j then one else zero))

/-- R171, R172: the 1000 rounds, each the MD5 of one message of at least 16 bytes; the schedule has period 42; its
first rounds. -/
def Obligations.StretchingSchedule : Prop :=
  let message (pw salt final : List Byte) (i : Nat) : List Byte :=
    (if i % 2 = 1 then pw else final) ++ (if i % 3 ≠ 0 then salt else []) ++
      (if i % 7 ≠ 0 then pw else []) ++ (if i % 2 = 1 then final else pw)
  (∀ pw salt final,
    stretchAll pw salt final =
      (List.range 1000).foldl (fun f i => md5 (message pw salt f i)) final) ∧
  (∀ pw salt final i,
    stretchRound pw salt final (i + 42) = stretchRound pw salt final i ∧
    (final.length = 16 → 16 ≤ (message pw salt final i).length)) ∧
  (∀ pw salt f,
    stretchRound pw salt f 0 = md5 (f ++ pw) ∧
    stretchRound pw salt f 1 = md5 (pw ++ salt ++ pw ++ f) ∧
    stretchRound pw salt f 2 = md5 (f ++ salt ++ pw ++ pw) ∧
    stretchRound pw salt f 3 = md5 (pw ++ pw ++ f) ∧
    stretchRound pw salt f 6 = md5 (f ++ pw ++ pw) ∧
    stretchRound pw salt f 7 = md5 (pw ++ salt ++ f) ∧
    stretchRound pw salt f 14 = md5 (f ++ salt ++ pw) ∧
    stretchRound pw salt f 21 = md5 (pw ++ f))

/-- R173, R174: the permuted digest in 22 characters: the six groups, and the small last character; no byte of the
digest is lost. -/
def Obligations.PermutedEncodingKeepsDigest : Prop :=
  (∀ f0 f1 f2 f3 f4 f5 f6 f7 f8 f9 f10 f11 f12 f13 f14 f15 : Byte,
    encodeFinal [f0, f1, f2, f3, f4, f5, f6, f7, f8, f9, f10, f11, f12, f13, f14, f15] =
      to64 (65536 * f0.toNat + 256 * f6.toNat + f12.toNat) 4 ++
      to64 (65536 * f1.toNat + 256 * f7.toNat + f13.toNat) 4 ++
      to64 (65536 * f2.toNat + 256 * f8.toNat + f14.toNat) 4 ++
      to64 (65536 * f3.toNat + 256 * f9.toNat + f15.toNat) 4 ++
      to64 (65536 * f4.toNat + 256 * f10.toNat + f5.toNat) 4 ++
      to64 f11.toNat 2) ∧
  (∀ f : List Byte, (encodeFinal f).length = 22 ∧
    ∃ u, (encodeFinal f)[21]? = some u ∧ u ∈ ([0x2E, 0x2F, 0x30, 0x31] : List Byte)) ∧
  (∀ f g : List Byte, f.length = 16 → g.length = 16 → encodeFinal f = encodeFinal g → f = g)

/-- R165 to R170, R175: the encoded string from whole-message digests. `literal` is APR1_MIX_LITERAL (R169). -/
def Obligations.Apr1StringFromWholeMessages : Prop :=
  ∀ literal pw sp,
    let salt := saltOf sp
    let L := pw.length
    let seed := md5Whole (pw ++ salt ++ pw)
    let chunks := (List.replicate (L / 16) seed).flatten ++ seed.take (L % 16)
    let mixed := (List.range (if L = 0 then 0 else L.log2 + 1)).map
      (fun j => if L.testBit j then (if literal then seed.getD 0 0 else 0x00) else pw.getD 0 0)
    let first := md5Whole (pw ++ magic ++ salt ++ chunks ++ mixed)
    apr1String literal pw sp = magic ++ salt ++ [0x24] ++ encodeFinal (stretchAll pw salt first)

/-- R175: the string's form, its length 29 + |salt|, between 29 and 37, and that it holds no 0x00. -/
def Obligations.Apr1StringShape : Prop :=
  ∀ literal pw sp,
    (apr1String literal pw sp).length = 29 + (saltOf sp).length ∧
    29 ≤ (apr1String literal pw sp).length ∧ (apr1String literal pw sp).length ≤ 37 ∧
    (magic ++ saltOf sp ++ [0x24]) <+: apr1String literal pw sp ∧
    (0x00 ∉ sp → 0x00 ∉ apr1String literal pw sp)

/-- R177, R179 (2), (3): a complete prior hash as the salt source gives the salt, and so the string, of its bare
salt: a host verifies a password by comparing. -/
def Obligations.PriorHashGivesSameString : Prop :=
  (∀ salt rest : List Byte, salt.length ≤ 8 → 0x24 ∉ salt →
    saltOf (magic ++ salt ++ [0x24] ++ rest) = salt ∧ saltOf (magic ++ salt) = salt ∧ saltOf salt = salt) ∧
  (∀ literal literal' pw pw' sp,
    apr1String literal pw (apr1String literal' pw' sp) = apr1String literal pw (saltOf sp) ∧
    apr1String literal pw (saltOf sp) = apr1String literal pw sp)

/-- R176: what BUF and RESULT hold after the copy, byte by byte: the largest part of the string that fits, always
terminated, and nothing for capacity 0. -/
def Obligations.Apr1OutputTruncation : Prop :=
  ∀ s pw sp, s.a0 + s.a1 ≤ s.params.bufBytes → s.a2 + s.a3 ≤ s.params.bufBytes →
    s.buf.HoldsText s.a0 s.a1 pw → s.buf.HoldsText s.a2 s.a3 sp →
    s.a4 + (if s.a5 = 0 then 0 else min (s.a5 - 1) (29 + (saltOf sp).length) + 1) ≤ s.params.bufBytes →
    ∃ t, exec .apr1Encode s = .next t ∧ t.status = s.status ∧
      (s.a5 = 0 → t.result = 0 ∧ ∀ x, t.buf.read x = s.buf.read x) ∧
      (s.a5 ≠ 0 → ∃ k, k = min (s.a5 - 1) (29 + (saltOf sp).length) ∧ t.result.toNat = k ∧
        (∀ j, j < k → t.buf.read (s.a4 + j) = (apr1String s.params.mixLiteral pw sp)[j]?) ∧
        t.buf.read (s.a4 + k) = some 0x00 ∧
        ∀ x, x < s.a4 ∨ s.a4 + k < x → t.buf.read x = s.buf.read x)
end

