-- ==== Sys2Proof/Laws/Memory.lean ====
section
/-! SUPPORT. BUF: read after write, the canonical form, and what a command's reads answer. -/

namespace Sys2Proof.Machine

/-- A byte reads the last value written to it, and a write changes no other byte (R60). -/
@[simp] theorem Memory.read_write (m : Memory) (a : Nat) (b : Byte) (x : Nat) :
    (m.write a b).read x = if x = a then some b else m.read x := by
  induction m with
  | nil => simp [Memory.write, Memory.read]
  | cons c m ih =>
    simp only [Memory.write]
    by_cases h1 : a < c.1
    · simp only [if_pos h1, Memory.read]
    · by_cases h2 : a = c.1
      · rw [if_neg h1, if_pos h2]
        simp only [Memory.read, ← h2]
        split <;> rfl
      · simp only [if_neg h1, if_neg h2, Memory.read, ih]
        by_cases h3 : x = c.1
        · simp [h3, Ne.symm h2]
        · simp [h3]

/-- Every cell after a write is the written one or an old one. -/
theorem Memory.mem_write {m : Memory} {a : Nat} {b : Byte} {c : Host.Cell} (h : c ∈ m.write a b) :
    c = (a, b) ∨ c ∈ m := by
  induction m with
  | nil => simpa [Memory.write] using h
  | cons d m ih =>
    simp only [Memory.write] at h
    split at h
    · simpa using h
    · split at h
      · rcases List.mem_cons.mp h with h | h
        · exact .inl h
        · exact .inr (List.mem_cons_of_mem _ h)
      · rcases List.mem_cons.mp h with h | h
        · exact .inr (h ▸ List.mem_cons_self)
        · exact (ih h).imp id (List.mem_cons_of_mem _)

/-- A write keeps the canonical form. -/
theorem Memory.write_wf {m : Memory} (a : Nat) (b : Byte) (h : m.Wf) : (m.write a b).Wf := by
  induction m with
  | nil => simp [Memory.write]
  | cons c m ih =>
    have ⟨hc, hm⟩ := List.pairwise_cons.mp h
    simp only [Memory.write]
    split
    · next hlt =>
      refine List.pairwise_cons.mpr ⟨fun d hd => ?_, h⟩
      rcases List.mem_cons.mp hd with rfl | hd
      · exact hlt
      · exact Nat.lt_trans hlt (hc d hd)
    · split
      · next heq =>
        refine List.pairwise_cons.mpr ⟨fun d hd => ?_, hm⟩
        show a < d.1
        rw [heq]; exact hc d hd
      · next hlt hne =>
        refine List.pairwise_cons.mpr ⟨fun d hd => ?_, ih hm⟩
        rcases Memory.mem_write hd with rfl | hd
        · show c.1 < a; omega
        · exact hc d hd

/-- A write of several bytes keeps the canonical form. -/
theorem Memory.writeBytes_wf {m : Memory} (a : Nat) (bs : List Byte) (h : m.Wf) : (m.writeBytes a bs).Wf := by
  induction bs generalizing m a with
  | nil => exact h
  | cons b bs ih => exact ih (a + 1) (Memory.write_wf a b h)

/-- A write of several bytes adds no address outside its range. -/
theorem Memory.writeBytes_bound {m : Memory} {n : Nat} (a : Nat) (bs : List Byte)
    (h : ∀ c ∈ m, c.1 < n) (ha : a + bs.length ≤ n) : ∀ c ∈ m.writeBytes a bs, c.1 < n := by
  induction bs generalizing m a with
  | nil => exact h
  | cons b bs ih =>
    simp only [List.length_cons] at ha
    refine ih (a + 1) (fun c hc => ?_) (by omega)
    rcases Memory.mem_write hc with rfl | hc
    · show a < n; omega
    · exact h c hc

/-- What every byte of BUF holds after a write of several bytes (R10). -/
theorem Memory.read_writeBytes (m : Memory) (a : Nat) (bs : List Byte) (x : Nat) :
    (m.writeBytes a bs).read x = if a ≤ x ∧ x < a + bs.length then bs[x - a]? else m.read x := by
  induction bs generalizing m a with
  | nil => rw [if_neg (by simp only [List.length_nil]; omega)]; rfl
  | cons b bs ih =>
    simp only [Memory.writeBytes, ih, Memory.read_write, List.length_cons]
    by_cases h : a + 1 ≤ x ∧ x < a + 1 + bs.length
    · have h' : a ≤ x ∧ x < a + (bs.length + 1) := by omega
      have e : x - a = (x - (a + 1)) + 1 := by omega
      simp only [if_pos h, if_pos h', e, List.getElem?_cons_succ]
    · by_cases hx : x = a
      · subst hx
        have h' : x ≤ x ∧ x < x + (bs.length + 1) := by omega
        simp only [if_neg h, if_pos h', if_true, Nat.sub_self, List.getElem?_cons_zero]
      · have h' : ¬ (a ≤ x ∧ x < a + (bs.length + 1)) := by omega
        simp only [if_neg h, if_neg h', if_neg hx]

/-- A byte string is held from `a` on exactly if its first byte is held at `a` and the rest after it. -/
theorem Memory.holds_cons {m : Memory} {a : Nat} {b : Byte} {bs : List Byte} :
    m.Holds a (b :: bs) ↔ m.read a = some b ∧ m.Holds (a + 1) bs := by
  constructor
  · intro h
    refine ⟨by simpa using h 0 (by simp), fun k hk => ?_⟩
    have := h (k + 1) (by simpa using hk)
    simpa [Nat.add_assoc, Nat.add_comm 1 k] using this
  · rintro ⟨h0, hs⟩ k hk
    cases k with
    | zero => simpa using h0
    | succ k =>
      have := hs k (by simpa using hk)
      simpa [Nat.add_assoc, Nat.add_comm 1 k] using this

/-- `Memory.readBytes` answers the bytes BUF holds, all of them written (R52). -/
theorem Memory.readBytes_ok {m : Memory} {a n : Nat} {bs : List Byte} :
    m.readBytes a n = .ok bs ↔ bs.length = n ∧ m.Holds a bs := by
  induction n generalizing a bs with
  | zero =>
    simp only [Memory.readBytes, Except.ok.injEq, List.length_eq_zero_iff]
    constructor
    · rintro rfl; exact ⟨rfl, fun k hk => absurd hk (Nat.not_lt_zero k)⟩
    · rintro ⟨rfl, _⟩; rfl
  | succ n ih =>
    simp only [Memory.readBytes, Memory.fetch]
    cases bs with
    | nil =>
      cases m.read a with
      | none => simp
      | some b => cases hr : Memory.readBytes m (a + 1) n <;> simp
    | cons b bs =>
      rw [Memory.holds_cons]
      cases hb : m.read a with
      | none => simp
      | some c =>
        cases hr : Memory.readBytes m (a + 1) n with
        | error f =>
          simp only [reduceCtorEq, List.length_cons, Option.some.injEq, false_iff, not_and]
          rintro hl - hh
          exact absurd (ih.mpr ⟨by omega, hh⟩) (by simp [hr])
        | ok cs =>
          simp only [Except.ok.injEq, List.cons.injEq, List.length_cons, Option.some.injEq]
          constructor
          · rintro ⟨rfl, rfl⟩
            exact ⟨by rw [(ih.mp hr).1], rfl, (ih.mp hr).2⟩
          · rintro ⟨hl, rfl, hh⟩
            have := ih.mpr ⟨by omega, hh⟩
            rw [hr] at this
            exact ⟨rfl, by injection this⟩

/-- `Memory.readBytes` faults exactly if some byte of the range has not been written (R52). -/
theorem Memory.readBytes_error {m : Memory} {a n : Nat} {f : Fault} (h : m.readBytes a n = .error f) :
    ∃ x, f = .bufUnwritten x ∧ a ≤ x ∧ x < a + n ∧ m.read x = none := by
  induction n generalizing a with
  | zero => simp [Memory.readBytes] at h
  | succ n ih =>
    simp only [Memory.readBytes, Memory.fetch] at h
    cases hb : m.read a with
    | none =>
      simp only [hb, Except.error.injEq] at h
      exact ⟨a, h.symm, Nat.le_refl a, by omega, hb⟩
    | some c =>
      simp only [hb] at h
      cases hr : Memory.readBytes m (a + 1) n with
      | ok cs => simp [hr] at h
      | error g =>
        simp only [hr, Except.error.injEq] at h
        obtain ⟨x, hf, h1, h2, h3⟩ := ih (hr.trans (by rw [h]))
        exact ⟨x, hf, by omega, by omega, h3⟩

/-- `Memory.text` answers the text operand (R160). -/
theorem Memory.text_ok {m : Memory} {a n : Nat} {bs : List Byte} :
    m.text a n = .ok bs ↔ m.HoldsText a n bs := by
  induction n generalizing a bs with
  | zero =>
    simp only [Memory.text, Except.ok.injEq, Memory.HoldsText]
    constructor
    · rintro rfl
      exact ⟨fun k hk => absurd hk (Nat.not_lt_zero k), by simp, by simp⟩
    · rintro ⟨-, -, h⟩
      exact (List.length_eq_zero_iff.mp (by omega)).symm
  | succ n ih =>
    simp only [Memory.text, Memory.fetch]
    cases bs with
    | nil =>
      cases hb : m.read a with
      | none => simp [Memory.HoldsText, hb]
      | some c =>
        by_cases hc : c = 0x00
        · subst hc
          simp [Memory.HoldsText, Memory.Holds, hb]
        · simp only [if_neg hc]
          cases hr : Memory.text m (a + 1) n <;> simp [Memory.HoldsText, hb] <;> exact fun _ => hc
    | cons b bs =>
      have key : m.HoldsText a (n + 1) (b :: bs) ↔
          m.read a = some b ∧ b ≠ 0x00 ∧ m.HoldsText (a + 1) n bs := by
        simp only [Memory.HoldsText, Memory.holds_cons, List.forall_mem_cons, List.length_cons,
          Nat.add_right_cancel_iff, Nat.add_lt_add_iff_right, Nat.add_assoc, Nat.add_comm 1]
        constructor
        · rintro ⟨⟨h1, h2⟩, ⟨h3, h4⟩, h5⟩; exact ⟨h1, h3, h2, h4, h5⟩
        · rintro ⟨h1, h3, h2, h4, h5⟩; exact ⟨⟨h1, h2⟩, ⟨h3, h4⟩, h5⟩
      rw [key]
      cases hb : m.read a with
      | none => simp
      | some c =>
        by_cases hc : c = 0x00
        · subst hc
          simp only [if_true, Except.ok.injEq, List.nil_eq, reduceCtorEq, Option.some.injEq, false_iff,
            not_and]
          rintro rfl h; exact absurd rfl h
        · simp only [if_neg hc]
          cases hr : Memory.text m (a + 1) n with
          | error f =>
            simp only [reduceCtorEq, false_iff, not_and]
            rintro - - h
            exact absurd (ih.mpr h) (by simp [hr])
          | ok cs =>
            simp only [Except.ok.injEq, List.cons.injEq, Option.some.injEq]
            constructor
            · rintro ⟨rfl, rfl⟩; exact ⟨rfl, hc, ih.mp hr⟩
            · rintro ⟨rfl, -, h⟩
              have := ih.mpr h
              rw [hr] at this
              exact ⟨rfl, by injection this⟩

/-- `Memory.text` faults only at an unwritten byte of the range (R52, R160). -/
theorem Memory.text_error {m : Memory} {a n : Nat} {f : Fault} (h : m.text a n = .error f) :
    ∃ x, f = .bufUnwritten x ∧ a ≤ x ∧ x < a + n ∧ m.read x = none := by
  induction n generalizing a with
  | zero => simp [Memory.text] at h
  | succ n ih =>
    simp only [Memory.text, Memory.fetch] at h
    cases hb : m.read a with
    | none =>
      simp only [hb, Except.error.injEq] at h
      exact ⟨a, h.symm, Nat.le_refl a, by omega, hb⟩
    | some c =>
      simp only [hb] at h
      split at h
      · simp at h
      · cases hr : Memory.text m (a + 1) n with
        | ok cs => simp [hr] at h
        | error g =>
          simp only [hr, Except.error.injEq] at h
          obtain ⟨x, hf, h1, h2, h3⟩ := ih (hr.trans (by rw [h]))
          exact ⟨x, hf, by omega, by omega, h3⟩

end Sys2Proof.Machine
end

