-- ==== Sys2Proof/Laws/State.lean ====
section
/-! SUPPORT. One lemma for each field of the state and each update of it, all true by rfl, so that no later proof
unfolds a record update; the same for the arguments read as naturals; and the lemmas of STATUS. -/

namespace Sys2Proof.Machine

/-! ### `State.setSlot` -/

@[simp] theorem State.setSlot_params (s : State) (c : Nat) (x : Slot) : (s.setSlot c x).params = s.params := rfl
@[simp] theorem State.setSlot_cmd (s : State) (c : Nat) (x : Slot) : (s.setSlot c x).cmd = s.cmd := rfl
@[simp] theorem State.setSlot_status (s : State) (c : Nat) (x : Slot) : (s.setSlot c x).status = s.status := rfl
@[simp] theorem State.setSlot_result (s : State) (c : Nat) (x : Slot) : (s.setSlot c x).result = s.result := rfl
@[simp] theorem State.setSlot_arg0 (s : State) (c : Nat) (x : Slot) : (s.setSlot c x).arg0 = s.arg0 := rfl
@[simp] theorem State.setSlot_arg1 (s : State) (c : Nat) (x : Slot) : (s.setSlot c x).arg1 = s.arg1 := rfl
@[simp] theorem State.setSlot_arg2 (s : State) (c : Nat) (x : Slot) : (s.setSlot c x).arg2 = s.arg2 := rfl
@[simp] theorem State.setSlot_arg3 (s : State) (c : Nat) (x : Slot) : (s.setSlot c x).arg3 = s.arg3 := rfl
@[simp] theorem State.setSlot_arg4 (s : State) (c : Nat) (x : Slot) : (s.setSlot c x).arg4 = s.arg4 := rfl
@[simp] theorem State.setSlot_arg5 (s : State) (c : Nat) (x : Slot) : (s.setSlot c x).arg5 = s.arg5 := rfl
@[simp] theorem State.setSlot_ctx (s : State) (c : Nat) (x : Slot) : (s.setSlot c x).ctx = s.ctx.set c x := rfl
@[simp] theorem State.setSlot_buf (s : State) (c : Nat) (x : Slot) : (s.setSlot c x).buf = s.buf := rfl
@[simp] theorem State.setSlot_apr1 (s : State) (c : Nat) (x : Slot) : (s.setSlot c x).apr1 = s.apr1 := rfl
@[simp] theorem State.setSlot_pending (s : State) (c : Nat) (x : Slot) : (s.setSlot c x).pending = s.pending := rfl
@[simp] theorem State.setSlot_replies (s : State) (c : Nat) (x : Slot) : (s.setSlot c x).replies = s.replies := rfl
@[simp] theorem State.setSlot_draws (s : State) (c : Nat) (x : Slot) : (s.setSlot c x).draws = s.draws := rfl

/-! ### `State.setResult` -/

@[simp] theorem State.setResult_params (s : State) (v : Word) : (s.setResult v).params = s.params := rfl
@[simp] theorem State.setResult_cmd (s : State) (v : Word) : (s.setResult v).cmd = s.cmd := rfl
@[simp] theorem State.setResult_status (s : State) (v : Word) : (s.setResult v).status = s.status := rfl
@[simp] theorem State.setResult_result (s : State) (v : Word) : (s.setResult v).result = v := rfl
@[simp] theorem State.setResult_arg0 (s : State) (v : Word) : (s.setResult v).arg0 = s.arg0 := rfl
@[simp] theorem State.setResult_arg1 (s : State) (v : Word) : (s.setResult v).arg1 = s.arg1 := rfl
@[simp] theorem State.setResult_arg2 (s : State) (v : Word) : (s.setResult v).arg2 = s.arg2 := rfl
@[simp] theorem State.setResult_arg3 (s : State) (v : Word) : (s.setResult v).arg3 = s.arg3 := rfl
@[simp] theorem State.setResult_arg4 (s : State) (v : Word) : (s.setResult v).arg4 = s.arg4 := rfl
@[simp] theorem State.setResult_arg5 (s : State) (v : Word) : (s.setResult v).arg5 = s.arg5 := rfl
@[simp] theorem State.setResult_ctx (s : State) (v : Word) : (s.setResult v).ctx = s.ctx := rfl
@[simp] theorem State.setResult_buf (s : State) (v : Word) : (s.setResult v).buf = s.buf := rfl
@[simp] theorem State.setResult_apr1 (s : State) (v : Word) : (s.setResult v).apr1 = s.apr1 := rfl
@[simp] theorem State.setResult_pending (s : State) (v : Word) : (s.setResult v).pending = s.pending := rfl
@[simp] theorem State.setResult_replies (s : State) (v : Word) : (s.setResult v).replies = s.replies := rfl
@[simp] theorem State.setResult_draws (s : State) (v : Word) : (s.setResult v).draws = s.draws := rfl

/-! ### `State.store` -/

@[simp] theorem State.store_params (s : State) (a : Nat) (bs : List Byte) : (s.store a bs).params = s.params := rfl
@[simp] theorem State.store_cmd (s : State) (a : Nat) (bs : List Byte) : (s.store a bs).cmd = s.cmd := rfl
@[simp] theorem State.store_status (s : State) (a : Nat) (bs : List Byte) : (s.store a bs).status = s.status := rfl
@[simp] theorem State.store_result (s : State) (a : Nat) (bs : List Byte) : (s.store a bs).result = s.result := rfl
@[simp] theorem State.store_arg0 (s : State) (a : Nat) (bs : List Byte) : (s.store a bs).arg0 = s.arg0 := rfl
@[simp] theorem State.store_arg1 (s : State) (a : Nat) (bs : List Byte) : (s.store a bs).arg1 = s.arg1 := rfl
@[simp] theorem State.store_arg2 (s : State) (a : Nat) (bs : List Byte) : (s.store a bs).arg2 = s.arg2 := rfl
@[simp] theorem State.store_arg3 (s : State) (a : Nat) (bs : List Byte) : (s.store a bs).arg3 = s.arg3 := rfl
@[simp] theorem State.store_arg4 (s : State) (a : Nat) (bs : List Byte) : (s.store a bs).arg4 = s.arg4 := rfl
@[simp] theorem State.store_arg5 (s : State) (a : Nat) (bs : List Byte) : (s.store a bs).arg5 = s.arg5 := rfl
@[simp] theorem State.store_ctx (s : State) (a : Nat) (bs : List Byte) : (s.store a bs).ctx = s.ctx := rfl
@[simp] theorem State.store_buf (s : State) (a : Nat) (bs : List Byte) : (s.store a bs).buf = s.buf.writeBytes a bs := rfl
@[simp] theorem State.store_apr1 (s : State) (a : Nat) (bs : List Byte) : (s.store a bs).apr1 = s.apr1 := rfl
@[simp] theorem State.store_pending (s : State) (a : Nat) (bs : List Byte) : (s.store a bs).pending = s.pending := rfl
@[simp] theorem State.store_replies (s : State) (a : Nat) (bs : List Byte) : (s.store a bs).replies = s.replies := rfl
@[simp] theorem State.store_draws (s : State) (a : Nat) (bs : List Byte) : (s.store a bs).draws = s.draws := rfl

/-! ### `State.setBusy` -/

@[simp] theorem State.setBusy_params (s : State) (b : Bool) : (s.setBusy b).params = s.params := rfl
@[simp] theorem State.setBusy_cmd (s : State) (b : Bool) : (s.setBusy b).cmd = s.cmd := rfl
@[simp] theorem State.setBusy_status (s : State) (b : Bool) : (s.setBusy b).status = s.status.withBusy b := rfl
@[simp] theorem State.setBusy_result (s : State) (b : Bool) : (s.setBusy b).result = s.result := rfl
@[simp] theorem State.setBusy_arg0 (s : State) (b : Bool) : (s.setBusy b).arg0 = s.arg0 := rfl
@[simp] theorem State.setBusy_arg1 (s : State) (b : Bool) : (s.setBusy b).arg1 = s.arg1 := rfl
@[simp] theorem State.setBusy_arg2 (s : State) (b : Bool) : (s.setBusy b).arg2 = s.arg2 := rfl
@[simp] theorem State.setBusy_arg3 (s : State) (b : Bool) : (s.setBusy b).arg3 = s.arg3 := rfl
@[simp] theorem State.setBusy_arg4 (s : State) (b : Bool) : (s.setBusy b).arg4 = s.arg4 := rfl
@[simp] theorem State.setBusy_arg5 (s : State) (b : Bool) : (s.setBusy b).arg5 = s.arg5 := rfl
@[simp] theorem State.setBusy_ctx (s : State) (b : Bool) : (s.setBusy b).ctx = s.ctx := rfl
@[simp] theorem State.setBusy_buf (s : State) (b : Bool) : (s.setBusy b).buf = s.buf := rfl
@[simp] theorem State.setBusy_apr1 (s : State) (b : Bool) : (s.setBusy b).apr1 = s.apr1 := rfl
@[simp] theorem State.setBusy_pending (s : State) (b : Bool) : (s.setBusy b).pending = s.pending := rfl
@[simp] theorem State.setBusy_replies (s : State) (b : Bool) : (s.setBusy b).replies = s.replies := rfl
@[simp] theorem State.setBusy_draws (s : State) (b : Bool) : (s.setBusy b).draws = s.draws := rfl

/-! ### `State.raiseError` -/

@[simp] theorem State.raiseError_params (s : State) (e : ErrorCode) : (s.raiseError e).params = s.params := rfl
@[simp] theorem State.raiseError_cmd (s : State) (e : ErrorCode) : (s.raiseError e).cmd = s.cmd := rfl
@[simp] theorem State.raiseError_status (s : State) (e : ErrorCode) : (s.raiseError e).status = s.status.record e := rfl
@[simp] theorem State.raiseError_result (s : State) (e : ErrorCode) : (s.raiseError e).result = s.result := rfl
@[simp] theorem State.raiseError_arg0 (s : State) (e : ErrorCode) : (s.raiseError e).arg0 = s.arg0 := rfl
@[simp] theorem State.raiseError_arg1 (s : State) (e : ErrorCode) : (s.raiseError e).arg1 = s.arg1 := rfl
@[simp] theorem State.raiseError_arg2 (s : State) (e : ErrorCode) : (s.raiseError e).arg2 = s.arg2 := rfl
@[simp] theorem State.raiseError_arg3 (s : State) (e : ErrorCode) : (s.raiseError e).arg3 = s.arg3 := rfl
@[simp] theorem State.raiseError_arg4 (s : State) (e : ErrorCode) : (s.raiseError e).arg4 = s.arg4 := rfl
@[simp] theorem State.raiseError_arg5 (s : State) (e : ErrorCode) : (s.raiseError e).arg5 = s.arg5 := rfl
@[simp] theorem State.raiseError_ctx (s : State) (e : ErrorCode) : (s.raiseError e).ctx = s.ctx := rfl
@[simp] theorem State.raiseError_buf (s : State) (e : ErrorCode) : (s.raiseError e).buf = s.buf := rfl
@[simp] theorem State.raiseError_apr1 (s : State) (e : ErrorCode) : (s.raiseError e).apr1 = s.apr1 := rfl
@[simp] theorem State.raiseError_pending (s : State) (e : ErrorCode) : (s.raiseError e).pending = s.pending := rfl
@[simp] theorem State.raiseError_replies (s : State) (e : ErrorCode) : (s.raiseError e).replies = s.replies := rfl
@[simp] theorem State.raiseError_draws (s : State) (e : ErrorCode) : (s.raiseError e).draws = s.draws := rfl

/-! ### `State.reply` -/

@[simp] theorem State.reply_params (s : State) (r : Reply) : (s.reply r).params = s.params := rfl
@[simp] theorem State.reply_cmd (s : State) (r : Reply) : (s.reply r).cmd = s.cmd := rfl
@[simp] theorem State.reply_status (s : State) (r : Reply) : (s.reply r).status = s.status := rfl
@[simp] theorem State.reply_result (s : State) (r : Reply) : (s.reply r).result = s.result := rfl
@[simp] theorem State.reply_arg0 (s : State) (r : Reply) : (s.reply r).arg0 = s.arg0 := rfl
@[simp] theorem State.reply_arg1 (s : State) (r : Reply) : (s.reply r).arg1 = s.arg1 := rfl
@[simp] theorem State.reply_arg2 (s : State) (r : Reply) : (s.reply r).arg2 = s.arg2 := rfl
@[simp] theorem State.reply_arg3 (s : State) (r : Reply) : (s.reply r).arg3 = s.arg3 := rfl
@[simp] theorem State.reply_arg4 (s : State) (r : Reply) : (s.reply r).arg4 = s.arg4 := rfl
@[simp] theorem State.reply_arg5 (s : State) (r : Reply) : (s.reply r).arg5 = s.arg5 := rfl
@[simp] theorem State.reply_ctx (s : State) (r : Reply) : (s.reply r).ctx = s.ctx := rfl
@[simp] theorem State.reply_buf (s : State) (r : Reply) : (s.reply r).buf = s.buf := rfl
@[simp] theorem State.reply_apr1 (s : State) (r : Reply) : (s.reply r).apr1 = s.apr1 := rfl
@[simp] theorem State.reply_pending (s : State) (r : Reply) : (s.reply r).pending = s.pending := rfl
@[simp] theorem State.reply_replies (s : State) (r : Reply) : (s.reply r).replies = r :: s.replies := rfl
@[simp] theorem State.reply_draws (s : State) (r : Reply) : (s.reply r).draws = s.draws := rfl

/-! ### `State.runApr1` -/

@[simp] theorem State.runApr1_params (s : State) (pw sp : List Byte) : (s.runApr1 pw sp).params = s.params := rfl
@[simp] theorem State.runApr1_cmd (s : State) (pw sp : List Byte) : (s.runApr1 pw sp).cmd = s.cmd := rfl
@[simp] theorem State.runApr1_status (s : State) (pw sp : List Byte) : (s.runApr1 pw sp).status = s.status := rfl
@[simp] theorem State.runApr1_result (s : State) (pw sp : List Byte) : (s.runApr1 pw sp).result = s.result := rfl
@[simp] theorem State.runApr1_arg0 (s : State) (pw sp : List Byte) : (s.runApr1 pw sp).arg0 = s.arg0 := rfl
@[simp] theorem State.runApr1_arg1 (s : State) (pw sp : List Byte) : (s.runApr1 pw sp).arg1 = s.arg1 := rfl
@[simp] theorem State.runApr1_arg2 (s : State) (pw sp : List Byte) : (s.runApr1 pw sp).arg2 = s.arg2 := rfl
@[simp] theorem State.runApr1_arg3 (s : State) (pw sp : List Byte) : (s.runApr1 pw sp).arg3 = s.arg3 := rfl
@[simp] theorem State.runApr1_arg4 (s : State) (pw sp : List Byte) : (s.runApr1 pw sp).arg4 = s.arg4 := rfl
@[simp] theorem State.runApr1_arg5 (s : State) (pw sp : List Byte) : (s.runApr1 pw sp).arg5 = s.arg5 := rfl
@[simp] theorem State.runApr1_ctx (s : State) (pw sp : List Byte) : (s.runApr1 pw sp).ctx = s.ctx := rfl
@[simp] theorem State.runApr1_buf (s : State) (pw sp : List Byte) : (s.runApr1 pw sp).buf = s.buf := rfl
@[simp] theorem State.runApr1_apr1 (s : State) (pw sp : List Byte) : (s.runApr1 pw sp).apr1 = some (apr1Work s.params.mixLiteral pw sp) := rfl
@[simp] theorem State.runApr1_pending (s : State) (pw sp : List Byte) : (s.runApr1 pw sp).pending = s.pending := rfl
@[simp] theorem State.runApr1_replies (s : State) (pw sp : List Byte) : (s.runApr1 pw sp).replies = s.replies := rfl
@[simp] theorem State.runApr1_draws (s : State) (pw sp : List Byte) : (s.runApr1 pw sp).draws = s.draws := rfl

/-! ### `State.scrubApr1` -/

@[simp] theorem State.scrubApr1_params (s : State) : (s.scrubApr1).params = s.params := rfl
@[simp] theorem State.scrubApr1_cmd (s : State) : (s.scrubApr1).cmd = s.cmd := rfl
@[simp] theorem State.scrubApr1_status (s : State) : (s.scrubApr1).status = s.status := rfl
@[simp] theorem State.scrubApr1_result (s : State) : (s.scrubApr1).result = s.result := rfl
@[simp] theorem State.scrubApr1_arg0 (s : State) : (s.scrubApr1).arg0 = s.arg0 := rfl
@[simp] theorem State.scrubApr1_arg1 (s : State) : (s.scrubApr1).arg1 = s.arg1 := rfl
@[simp] theorem State.scrubApr1_arg2 (s : State) : (s.scrubApr1).arg2 = s.arg2 := rfl
@[simp] theorem State.scrubApr1_arg3 (s : State) : (s.scrubApr1).arg3 = s.arg3 := rfl
@[simp] theorem State.scrubApr1_arg4 (s : State) : (s.scrubApr1).arg4 = s.arg4 := rfl
@[simp] theorem State.scrubApr1_arg5 (s : State) : (s.scrubApr1).arg5 = s.arg5 := rfl
@[simp] theorem State.scrubApr1_ctx (s : State) : (s.scrubApr1).ctx = s.ctx := rfl
@[simp] theorem State.scrubApr1_buf (s : State) : (s.scrubApr1).buf = s.buf := rfl
@[simp] theorem State.scrubApr1_apr1 (s : State) : (s.scrubApr1).apr1 = none := rfl
@[simp] theorem State.scrubApr1_pending (s : State) : (s.scrubApr1).pending = s.pending := rfl
@[simp] theorem State.scrubApr1_replies (s : State) : (s.scrubApr1).replies = s.replies := rfl
@[simp] theorem State.scrubApr1_draws (s : State) : (s.scrubApr1).draws = s.draws := rfl

/-! ### `State.softReset` -/

@[simp] theorem State.softReset_params (s : State) : (s.softReset).params = s.params := rfl
@[simp] theorem State.softReset_cmd (s : State) : (s.softReset).cmd = s.cmd := rfl
@[simp] theorem State.softReset_status (s : State) : (s.softReset).status = Status.reset := rfl
@[simp] theorem State.softReset_result (s : State) : (s.softReset).result = 0x00000000 := rfl
@[simp] theorem State.softReset_arg0 (s : State) : (s.softReset).arg0 = s.arg0 := rfl
@[simp] theorem State.softReset_arg1 (s : State) : (s.softReset).arg1 = s.arg1 := rfl
@[simp] theorem State.softReset_arg2 (s : State) : (s.softReset).arg2 = s.arg2 := rfl
@[simp] theorem State.softReset_arg3 (s : State) : (s.softReset).arg3 = s.arg3 := rfl
@[simp] theorem State.softReset_arg4 (s : State) : (s.softReset).arg4 = s.arg4 := rfl
@[simp] theorem State.softReset_arg5 (s : State) : (s.softReset).arg5 = s.arg5 := rfl
@[simp] theorem State.softReset_ctx (s : State) : (s.softReset).ctx = List.replicate s.params.numCtx Slot.reset := rfl
@[simp] theorem State.softReset_buf (s : State) : (s.softReset).buf = s.buf := rfl
@[simp] theorem State.softReset_apr1 (s : State) : (s.softReset).apr1 = none := rfl
@[simp] theorem State.softReset_pending (s : State) : (s.softReset).pending = s.pending := rfl
@[simp] theorem State.softReset_replies (s : State) : (s.softReset).replies = s.replies := rfl
@[simp] theorem State.softReset_draws (s : State) : (s.softReset).draws = s.draws := rfl

/-! ### `State.hardReset` -/

@[simp] theorem State.hardReset_params (s : State) : (s.hardReset).params = s.params := rfl
@[simp] theorem State.hardReset_cmd (s : State) : (s.hardReset).cmd = 0x00000000 := rfl
@[simp] theorem State.hardReset_status (s : State) : (s.hardReset).status = Status.reset := rfl
@[simp] theorem State.hardReset_result (s : State) : (s.hardReset).result = 0x00000000 := rfl
@[simp] theorem State.hardReset_arg0 (s : State) : (s.hardReset).arg0 = 0x00000000 := rfl
@[simp] theorem State.hardReset_arg1 (s : State) : (s.hardReset).arg1 = 0x00000000 := rfl
@[simp] theorem State.hardReset_arg2 (s : State) : (s.hardReset).arg2 = 0x00000000 := rfl
@[simp] theorem State.hardReset_arg3 (s : State) : (s.hardReset).arg3 = 0x00000000 := rfl
@[simp] theorem State.hardReset_arg4 (s : State) : (s.hardReset).arg4 = 0x00000000 := rfl
@[simp] theorem State.hardReset_arg5 (s : State) : (s.hardReset).arg5 = 0x00000000 := rfl
@[simp] theorem State.hardReset_ctx (s : State) : (s.hardReset).ctx = List.replicate s.params.numCtx Slot.reset := rfl
@[simp] theorem State.hardReset_buf (s : State) : (s.hardReset).buf = [] := rfl
@[simp] theorem State.hardReset_apr1 (s : State) : (s.hardReset).apr1 = none := rfl
@[simp] theorem State.hardReset_pending (s : State) : (s.hardReset).pending = s.pending := rfl
@[simp] theorem State.hardReset_replies (s : State) : (s.hardReset).replies = s.replies := rfl
@[simp] theorem State.hardReset_draws (s : State) : (s.hardReset).draws = s.draws := rfl

/-! ### Arguments read as naturals (R73): no command's update changes one -/

@[simp] theorem State.setSlot_a0 (s : State) (c : Nat) (x : Slot) : (s.setSlot c x).a0 = s.a0 := rfl
@[simp] theorem State.setSlot_a1 (s : State) (c : Nat) (x : Slot) : (s.setSlot c x).a1 = s.a1 := rfl
@[simp] theorem State.setSlot_a2 (s : State) (c : Nat) (x : Slot) : (s.setSlot c x).a2 = s.a2 := rfl
@[simp] theorem State.setSlot_a3 (s : State) (c : Nat) (x : Slot) : (s.setSlot c x).a3 = s.a3 := rfl
@[simp] theorem State.setSlot_a4 (s : State) (c : Nat) (x : Slot) : (s.setSlot c x).a4 = s.a4 := rfl
@[simp] theorem State.setSlot_a5 (s : State) (c : Nat) (x : Slot) : (s.setSlot c x).a5 = s.a5 := rfl

@[simp] theorem State.setResult_a0 (s : State) (v : Word) : (s.setResult v).a0 = s.a0 := rfl
@[simp] theorem State.setResult_a1 (s : State) (v : Word) : (s.setResult v).a1 = s.a1 := rfl
@[simp] theorem State.setResult_a2 (s : State) (v : Word) : (s.setResult v).a2 = s.a2 := rfl
@[simp] theorem State.setResult_a3 (s : State) (v : Word) : (s.setResult v).a3 = s.a3 := rfl
@[simp] theorem State.setResult_a4 (s : State) (v : Word) : (s.setResult v).a4 = s.a4 := rfl
@[simp] theorem State.setResult_a5 (s : State) (v : Word) : (s.setResult v).a5 = s.a5 := rfl

@[simp] theorem State.store_a0 (s : State) (a : Nat) (bs : List Byte) : (s.store a bs).a0 = s.a0 := rfl
@[simp] theorem State.store_a1 (s : State) (a : Nat) (bs : List Byte) : (s.store a bs).a1 = s.a1 := rfl
@[simp] theorem State.store_a2 (s : State) (a : Nat) (bs : List Byte) : (s.store a bs).a2 = s.a2 := rfl
@[simp] theorem State.store_a3 (s : State) (a : Nat) (bs : List Byte) : (s.store a bs).a3 = s.a3 := rfl
@[simp] theorem State.store_a4 (s : State) (a : Nat) (bs : List Byte) : (s.store a bs).a4 = s.a4 := rfl
@[simp] theorem State.store_a5 (s : State) (a : Nat) (bs : List Byte) : (s.store a bs).a5 = s.a5 := rfl

@[simp] theorem State.setBusy_a0 (s : State) (b : Bool) : (s.setBusy b).a0 = s.a0 := rfl
@[simp] theorem State.setBusy_a1 (s : State) (b : Bool) : (s.setBusy b).a1 = s.a1 := rfl
@[simp] theorem State.setBusy_a2 (s : State) (b : Bool) : (s.setBusy b).a2 = s.a2 := rfl
@[simp] theorem State.setBusy_a3 (s : State) (b : Bool) : (s.setBusy b).a3 = s.a3 := rfl
@[simp] theorem State.setBusy_a4 (s : State) (b : Bool) : (s.setBusy b).a4 = s.a4 := rfl
@[simp] theorem State.setBusy_a5 (s : State) (b : Bool) : (s.setBusy b).a5 = s.a5 := rfl

@[simp] theorem State.raiseError_a0 (s : State) (e : ErrorCode) : (s.raiseError e).a0 = s.a0 := rfl
@[simp] theorem State.raiseError_a1 (s : State) (e : ErrorCode) : (s.raiseError e).a1 = s.a1 := rfl
@[simp] theorem State.raiseError_a2 (s : State) (e : ErrorCode) : (s.raiseError e).a2 = s.a2 := rfl
@[simp] theorem State.raiseError_a3 (s : State) (e : ErrorCode) : (s.raiseError e).a3 = s.a3 := rfl
@[simp] theorem State.raiseError_a4 (s : State) (e : ErrorCode) : (s.raiseError e).a4 = s.a4 := rfl
@[simp] theorem State.raiseError_a5 (s : State) (e : ErrorCode) : (s.raiseError e).a5 = s.a5 := rfl

@[simp] theorem State.reply_a0 (s : State) (r : Reply) : (s.reply r).a0 = s.a0 := rfl
@[simp] theorem State.reply_a1 (s : State) (r : Reply) : (s.reply r).a1 = s.a1 := rfl
@[simp] theorem State.reply_a2 (s : State) (r : Reply) : (s.reply r).a2 = s.a2 := rfl
@[simp] theorem State.reply_a3 (s : State) (r : Reply) : (s.reply r).a3 = s.a3 := rfl
@[simp] theorem State.reply_a4 (s : State) (r : Reply) : (s.reply r).a4 = s.a4 := rfl
@[simp] theorem State.reply_a5 (s : State) (r : Reply) : (s.reply r).a5 = s.a5 := rfl

@[simp] theorem State.runApr1_a0 (s : State) (pw sp : List Byte) : (s.runApr1 pw sp).a0 = s.a0 := rfl
@[simp] theorem State.runApr1_a1 (s : State) (pw sp : List Byte) : (s.runApr1 pw sp).a1 = s.a1 := rfl
@[simp] theorem State.runApr1_a2 (s : State) (pw sp : List Byte) : (s.runApr1 pw sp).a2 = s.a2 := rfl
@[simp] theorem State.runApr1_a3 (s : State) (pw sp : List Byte) : (s.runApr1 pw sp).a3 = s.a3 := rfl
@[simp] theorem State.runApr1_a4 (s : State) (pw sp : List Byte) : (s.runApr1 pw sp).a4 = s.a4 := rfl
@[simp] theorem State.runApr1_a5 (s : State) (pw sp : List Byte) : (s.runApr1 pw sp).a5 = s.a5 := rfl

@[simp] theorem State.scrubApr1_a0 (s : State) : (s.scrubApr1).a0 = s.a0 := rfl
@[simp] theorem State.scrubApr1_a1 (s : State) : (s.scrubApr1).a1 = s.a1 := rfl
@[simp] theorem State.scrubApr1_a2 (s : State) : (s.scrubApr1).a2 = s.a2 := rfl
@[simp] theorem State.scrubApr1_a3 (s : State) : (s.scrubApr1).a3 = s.a3 := rfl
@[simp] theorem State.scrubApr1_a4 (s : State) : (s.scrubApr1).a4 = s.a4 := rfl
@[simp] theorem State.scrubApr1_a5 (s : State) : (s.scrubApr1).a5 = s.a5 := rfl

@[simp] theorem State.softReset_a0 (s : State) : (s.softReset).a0 = s.a0 := rfl
@[simp] theorem State.softReset_a1 (s : State) : (s.softReset).a1 = s.a1 := rfl
@[simp] theorem State.softReset_a2 (s : State) : (s.softReset).a2 = s.a2 := rfl
@[simp] theorem State.softReset_a3 (s : State) : (s.softReset).a3 = s.a3 := rfl
@[simp] theorem State.softReset_a4 (s : State) : (s.softReset).a4 = s.a4 := rfl
@[simp] theorem State.softReset_a5 (s : State) : (s.softReset).a5 = s.a5 := rfl

/-! ### STATUS -/

@[simp] theorem Status.withBusy_busy (st : Status) (b : Bool) : (st.withBusy b).busy = b := rfl
@[simp] theorem Status.withBusy_err (st : Status) (b : Bool) : (st.withBusy b).err = st.err := rfl
@[simp] theorem Status.withBusy_errcode (st : Status) (b : Bool) : (st.withBusy b).errcode = st.errcode := rfl

@[simp] theorem Status.record_busy (st : Status) (e : ErrorCode) : (st.record e).busy = st.busy := by
  unfold Status.record; split <;> rfl

@[simp] theorem Status.record_err (st : Status) (e : ErrorCode) : (st.record e).err = true := by
  unfold Status.record; split <;> simp_all

/-- The first error stays recorded (R29). -/
theorem Status.record_of_err (st : Status) (e : ErrorCode) (h : st.err = true) : st.record e = st := by
  simp [Status.record, h]

/-- An error is recorded while ERR is 0 (R29). -/
theorem Status.record_of_clear (st : Status) (e : ErrorCode) (h : st.err = false) :
    st.record e = { st with err := true, errcode := e } := by
  simp [Status.record, h]

end Sys2Proof.Machine
end

