-- ==== Sys2Proof/Laws/Ops.lean ====
section
/-! SUPPORT. What each shared operation and each command can answer, said once: inversion lemmas for the check, for
reading operands and for `exec`, which later proofs cite instead of unfolding the meanings. -/

namespace Sys2Proof.Machine

/-- `afterCheck` answers a next state by raising an error, or by the effect (R76). -/
theorem afterCheck_next {e : Except Fault ErrorCode} {s t : State} {effect : Result} :
    afterCheck e s effect = .next t ↔
      (∃ c, c ≠ .none ∧ e = .ok c ∧ t = s.raiseError c) ∨ (e = .ok .none ∧ effect = .next t) := by
  rcases e with f | c
  · simp [afterCheck]
  · by_cases hc : c = .none
    · subst hc
      simp only [afterCheck, Except.ok.injEq, true_and]
      exact ⟨.inr, fun h => h.elim (fun ⟨d, hd, he, _⟩ => absurd he.symm hd) id⟩
    · have hl : afterCheck (.ok c) s effect = .next (s.raiseError c) := by
        cases c <;> first | exact absurd rfl hc | rfl
      simp only [hl, Host.Outcome.next.injEq, Except.ok.injEq]
      constructor
      · rintro rfl; exact .inl ⟨c, hc, rfl, rfl⟩
      · rintro (⟨d, -, rfl, rfl⟩ | ⟨h, -⟩)
        · rfl
        · exact absurd h hc

/-- `withBytes` answers a next state only for bytes that were read. -/
theorem withBytes_next {r : Except Fault (List Byte)} {k : List Byte → Result} {t : State} :
    withBytes r k = .next t ↔ ∃ m, r = .ok m ∧ k m = .next t := by
  cases r <;> simp [withBytes]

/-- With a check that finds no error, the command has its effect (R76). -/
@[simp] theorem afterCheck_ok (s : State) (effect : Result) : afterCheck (.ok .none) s effect = effect := rfl

/-- With a check that finds an error, that error is raised (R76, R203). -/
theorem afterCheck_raise {e : ErrorCode} (h : e ≠ .none) (s : State) (effect : Result) :
    afterCheck (.ok e) s effect = .next (s.raiseError e) := by
  cases e <;> first | exact absurd rfl h | rfl

/-- An error raised while ERR is 0 (R29, R203). -/
theorem State.raiseError_of_clear {s : State} (e : ErrorCode) (h : s.status.err = false) :
    s.raiseError e = s.failed e := by
  simp [State.raiseError, State.failed, Status.record_of_clear _ _ h]

/-- What a command that completes without error does to the state, one line for each command. -/
def Effect (i : Instr) (s t : State) : Prop :=
  match i with
  | .md5Init c => t = (s.setSlot c ⟨md5Init, .initialized⟩).setResult 0
  | .md5Update c => ∃ m, m.length = s.a1 ∧ s.buf.Holds s.a0 m ∧
      t = (s.setSlot c ⟨md5Update (s.slot c).ctx m, .accumulating⟩).setResult 0
  | .md5Final c => t = s.finishDigest c (s.slot c).ctx
  | .md5Digest c => ∃ m, m.length = s.a1 ∧ s.buf.Holds s.a0 m ∧ t = s.finishDigest c (md5Update md5Init m)
  | .to64 => t = (s.store s.a4 (to64 s.a0 s.a1)).setResult s.arg1
  | .apr1Encode => ∃ pw sp, s.buf.HoldsText s.a0 s.a1 pw ∧ s.buf.HoldsText s.a2 s.a3 sp ∧
      t = (s.runApr1 pw sp).copyApr1.scrubApr1
  | .sreset => t = s.softReset

/-- The inversion lemma of `exec`: a next state is an error raised, or the command's effect (R76). -/
theorem exec_next {i : Instr} {s t : State} :
    exec i s = .next t ↔
      (∃ e, e ≠ .none ∧ check i s = .ok e ∧ t = s.raiseError e) ∨
      (check i s = .ok .none ∧ Effect i s t) := by
  cases i <;>
    simp only [exec, execMd5Init, execMd5Update, execMd5Final, execMd5Digest, execTo64, execApr1Encode, execSreset,
      afterCheck_next, withBytes_next, Memory.readBytes_ok, Memory.text_ok, Effect, Host.Outcome.next.injEq,
      and_assoc, eq_comm (a := t),
      exists_and_left]

/-- A command whose check finds an error raises it (R203). -/
theorem exec_of_check_error {i : Instr} {s : State} {e : ErrorCode} (h : check i s = .ok e) (he : e ≠ .none) :
    exec i s = .next (s.raiseError e) :=
  exec_next.mpr (.inl ⟨e, he, h, rfl⟩)

/-- No command refuses. -/
theorem exec_ne_refused (i : Instr) (s : State) (r : Refusal) : exec i s ≠ .refused r := by
  intro h
  have key : ∀ (e : Except Fault ErrorCode) (eff : Result), (∀ r, eff ≠ .refused r) →
      ∀ r, afterCheck e s eff ≠ .refused r := by
    intro e eff heff r
    rcases e with f | c
    · simp [afterCheck]
    · cases c <;> simp [afterCheck, heff]
  have key2 : ∀ (x : Except Fault (List Byte)) (k : List Byte → Result), (∀ m r, k m ≠ .refused r) →
      ∀ r, withBytes x k ≠ .refused r := by
    intro x k hk r
    cases x <;> simp [withBytes, hk]
  cases i <;>
    simp only [exec, execMd5Init, execMd5Update, execMd5Final, execMd5Digest, execTo64, execApr1Encode,
      execSreset] at h <;>
    refine key _ _ ?_ _ h
  · simp
  · exact key2 _ _ (by simp)
  · simp
  · exact key2 _ _ (by simp)
  · simp
  · exact key2 _ _ fun m => key2 _ _ (by simp)
  · simp

/-! ### The state after a digest and after APR1_ENCODE's copy, field by field -/

/-- MD5_FINAL's and MD5_DIGEST's last lines, as one update (R132). -/
theorem State.finishDigest_eq (s : State) (c : Nat) (x : Context) :
    s.finishDigest c x = { s with
      buf    := s.buf.writeBytes s.a4 (md5Digest x)
      ctx    := s.ctx.set c ⟨scrub s.params.scrubMode (md5Padded x), .finalized⟩
      result := 16 } := by
  simp only [State.finishDigest, State.store, State.setSlot, State.setResult, md5Final, md5Digest, Config.digestBytes,
    BitVec.ofNat_eq_ofNat]

/-- APR1_ENCODE's phases 1 to 10, as one update (R176, R177). -/
theorem State.encodeApr1_eq (s : State) (pw sp : List Byte) :
    (s.runApr1 pw sp).copyApr1.scrubApr1 = { s with
      buf    := s.buf.writeBytes s.a4 (copyBytes s.a5 (apr1String s.params.mixLiteral pw sp))
      result := BitVec.ofNat 32 (copyCount s.a5 (apr1String s.params.mixLiteral pw sp).length)
      apr1   := none } := by
  simp only [State.runApr1, State.copyApr1, State.scrubApr1, State.store, State.setResult, apr1String, State.a4, State.a5]

/-! ### Slots -/

/-- Replacing a slot leaves every other one (R34). -/
theorem State.getElem?_setSlot_ne (s : State) {c d : Nat} (x : Slot) (h : c ≠ d) :
    (s.setSlot c x).ctx[d]? = s.ctx[d]? := by
  simp [h]

/-- A slot that exists reads what was put there. -/
theorem State.slot_setSlot_self (s : State) {c : Nat} (x : Slot) (h : c < s.ctx.length) :
    (s.setSlot c x).slot c = x := by
  simp [State.slot, h]

end Sys2Proof.Machine
end

