-- ==== Sys2Proof/Laws/Check.lean ====
section
/-! SUPPORT. When the check of R202 finds no error, command by command; what a command's completion needs. -/

namespace Sys2Proof.Machine

/-- The conditions under which the check of a command finds no error (R202). -/
def Passes (i : Instr) (s : State) : Prop :=
  match i with
  | .md5Init c   => c < s.params.numCtx
  | .md5Update c => c < s.params.numCtx ∧ s.a0 + s.a1 ≤ s.params.bufBytes ∧ (s.slot c).life.live = true
  | .md5Final c  => c < s.params.numCtx ∧ s.a4 + 16 ≤ s.params.bufBytes ∧ (s.slot c).life.live = true
  | .md5Digest c => c < s.params.numCtx ∧ s.a0 + s.a1 ≤ s.params.bufBytes ∧ s.a4 + 16 ≤ s.params.bufBytes
  | .to64        => s.a1 ≤ 6 ∧ s.a4 + s.a1 ≤ s.params.bufBytes
  | .apr1Encode  => s.a0 + s.a1 ≤ s.params.bufBytes ∧ s.a2 + s.a3 ≤ s.params.bufBytes ∧
      ∃ sp, s.buf.HoldsText s.a2 s.a3 sp ∧
        s.a4 + copyWidth s.a5 (29 + (saltOf sp).length) ≤ s.params.bufBytes
  | .sreset      => True

/-- A code chosen by a condition is NONE exactly if the condition fails and the rest is NONE. -/
theorem ite_code_eq_none {p : Prop} [Decidable p] {e f : ErrorCode} (he : e ≠ .none) :
    (if p then e else f) = .none ↔ ¬ p ∧ f = .none := by
  by_cases h : p
  · simp [h, he]
  · simp [h]

/-- A text operand is determined by what BUF holds (R160). -/
theorem Memory.HoldsText.unique {m : Memory} {a n : Nat} {x y : List Byte} (hx : m.HoldsText a n x)
    (hy : m.HoldsText a n y) : x = y := by
  have := (Memory.text_ok.mpr hx).symm.trans (Memory.text_ok.mpr hy)
  injection this

/-- The check finds no error exactly under the command's conditions (R202). -/
theorem check_eq_none {i : Instr} {s : State} : check i s = .ok .none ↔ Passes i s := by
  cases i with
  | apr1Encode =>
    simp only [check, Passes]
    by_cases hb : s.outOfBounds s.a0 s.a1 ∨ s.outOfBounds s.a2 s.a3
    · rw [if_pos hb]
      simp only [State.outOfBounds] at hb
      constructor
      · intro h; cases h
      · rintro ⟨h1, h2, -⟩; omega
    · rw [if_neg hb]
      simp only [State.outOfBounds] at hb
      cases ht : s.buf.text s.a2 s.a3 with
      | error f =>
        simp only [reduceCtorEq, false_iff]
        rintro ⟨-, -, sp, h, -⟩
        rw [Memory.text_ok.mpr h] at ht
        cases ht
      | ok sp =>
        have hsp := Memory.text_ok.mp ht
        simp only [checkApr1Out, Except.ok.injEq, ite_code_eq_none (e := .bounds) (by simp), and_true]
        simp only [State.outOfBounds, apr1Length, Nat.not_lt]
        constructor
        · exact fun h => ⟨by omega, by omega, sp, hsp, h⟩
        · rintro ⟨-, -, sp', h, hw⟩
          exact h.unique hsp ▸ hw
  | _ =>
    simp only [check, Passes, Except.ok.injEq, ite_code_eq_none (e := .ctxRange) (by simp),
      ite_code_eq_none (e := .bounds) (by simp), ite_code_eq_none (e := .ctxState) (by simp),
      ite_code_eq_none (e := .badArg) (by simp), and_true]
    try simp only [State.outOfBounds, Nat.not_le, Nat.not_lt, Bool.not_eq_false, Config.digestBytes, Config.to64Nmax]

/-- A command completes exactly if its check passes and the bytes it reads are written; the next state is its
effect (R76, R202). -/
theorem exec_completes {i : Instr} {s t : State} (hp : Passes i s) : exec i s = .next t ↔ Effect i s t := by
  rw [exec_next, check_eq_none.mpr hp]
  constructor
  · rintro (⟨e, he, h, -⟩ | ⟨-, h⟩)
    · injection h with h; exact absurd h.symm he
    · exact h
  · exact fun h => .inr ⟨rfl, h⟩

/-- The inversion lemma of `exec` with the check's conditions spelled out (R76, R202, R203). -/
theorem exec_cases {i : Instr} {s t : State} (h : exec i s = .next t) :
    (∃ e, e ≠ .none ∧ check i s = .ok e ∧ t = s.raiseError e) ∨ (Passes i s ∧ Effect i s t) :=
  (exec_next.mp h).imp id (And.imp_left check_eq_none.mp)

end Sys2Proof.Machine
end

