-- ==== Sys2Proof/Laws/Md5.lean ====
section
/-! SUPPORT. What the digest engine's loop does to a context, said once: a byte at a time, a list at a time, and
as an invariant that ties a context to the byte string that was pushed into it. -/

namespace Sys2Proof.Machine

/-- The loop of R125 over a concatenation. -/
theorem md5UpdateRaw_append (ctx : Context) (m1 m2 : List Byte) :
    md5UpdateRaw ctx (m1 ++ m2) = md5UpdateRaw (md5UpdateRaw ctx m1) m2 := by
  simp [md5UpdateRaw]

/-- The loop of R125 does not look at the counter. -/
theorem md5UpdateRaw_withCount (ctx : Context) (n : Count) (m : List Byte) :
    md5UpdateRaw { ctx with count := n } m = { md5UpdateRaw ctx m with count := n } := by
  induction m generalizing ctx with
  | nil => rfl
  | cons b m ih =>
    simp only [md5UpdateRaw, List.foldl_cons] at ih ⊢
    rw [← ih]
    congr 1
    simp only [pushByte]
    split <;> rfl

/-- Padding leaves the counter as it is (R127: padding bytes are not message bytes). -/
@[simp] theorem md5UpdateRaw_count (ctx : Context) (m : List Byte) :
    (md5UpdateRaw ctx m).count = ctx.count := by
  induction m generalizing ctx with
  | nil => rfl
  | cons b m ih =>
    simp only [md5UpdateRaw, List.foldl_cons] at ih ⊢
    rw [ih]
    simp only [pushByte]
    split <;> rfl

/-- `md5_update` field by field (R125). -/
@[simp] theorem md5Update_acc (ctx : Context) (m : List Byte) :
    (md5Update ctx m).acc = (md5UpdateRaw ctx m).acc := rfl
@[simp] theorem md5Update_plen (ctx : Context) (m : List Byte) :
    (md5Update ctx m).plen = (md5UpdateRaw ctx m).plen := rfl
@[simp] theorem md5Update_pend (ctx : Context) (m : List Byte) :
    (md5Update ctx m).pend = (md5UpdateRaw ctx m).pend := rfl
@[simp] theorem md5Update_count (ctx : Context) (m : List Byte) :
    (md5Update ctx m).count = ctx.count + BitVec.ofNat 64 (8 * m.length) := by
  simp [md5Update]

/-- A digest is 16 bytes (R128). -/
@[simp] theorem digestOf_length (acc : Acc) : (digestOf acc).length = 16 := rfl
@[simp] theorem md5Digest_length (ctx : Context) : (md5Digest ctx).length = 16 := digestOf_length _
@[simp] theorem md5_length (m : List Byte) : (md5 m).length = 16 := digestOf_length _

/-- How many bytes `pad` has (R127). -/
theorem pad_length (L : Nat) (count : Count) : (pad L count).length = padLength L - 1 + 9 := by
  simp [pad, le64, le32]

/-! ### Blocks of a byte string -/

/-- `blocksOf` has the number of blocks it is asked for. -/
@[simp] theorem blocksOf_length (n : Nat) (m : List Byte) : (blocksOf n m).length = n := by
  induction n generalizing m with
  | zero => rfl
  | succ n ih => simp [blocksOf, ih]

/-- The last block of `n + 1`. -/
theorem blocksOf_succ (n : Nat) (m : List Byte) :
    blocksOf (n + 1) m = blocksOf n m ++ [Vector.ofFn fun i : Fin 64 => m.getD (64 * n + i.val) 0] := by
  induction n generalizing m with
  | zero => simp [blocksOf]
  | succ n ih =>
    have h : ∀ i : Fin 64, (m.drop 64).getD (64 * n + i.val) 0 = m.getD (64 * (n + 1) + i.val) 0 := by
      intro i
      simp only [List.getD_eq_getElem?_getD, List.getElem?_drop]
      rw [show 64 + (64 * n + i.val) = 64 * (n + 1) + i.val by omega]
    rw [blocksOf, ih]
    simp only [h]
    rfl

/-- `blocksOf n` reads the first `64 n` bytes only. -/
theorem blocksOf_append (n : Nat) (m m' : List Byte) (h : 64 * n ≤ m.length) :
    blocksOf n (m ++ m') = blocksOf n m := by
  induction n with
  | zero => rfl
  | succ n ih =>
    rw [blocksOf_succ, blocksOf_succ, ih (by omega)]
    congr 3
    funext i
    have : 64 * n + i.val < m.length := by have := i.isLt; omega
    simp [List.getElem?_append_left this]

/-- A context that started from accumulators `acc0` with nothing pending and took in the byte string `m` (R126,
R33): whole blocks are compressed, the rest is pending. -/
structure Context.Took (acc0 : Acc) (m : List Byte) (ctx : Context) : Prop where
  acc : ctx.acc = (blocksOf (m.length / 64) m).foldl compress acc0
  plen : ctx.plen.val = m.length % 64
  pend : ∀ (k : Nat) (h : k < 64), k < m.length % 64 → ctx.pend[k] = m.getD (64 * (m.length / 64) + k) 0

/-- One byte more (R125). -/
theorem Context.Took.push {acc0 : Acc} {m : List Byte} {ctx : Context} (h : ctx.Took acc0 m) (b : Byte) :
    (pushByte ctx b).Took acc0 (m ++ [b]) := by
  obtain ⟨hacc, hplen, hpend⟩ := h
  have hget : ∀ (k : Nat) (hk : k < 64), k ≤ m.length % 64 →
      (ctx.pend.set ctx.plen b)[k] = (m ++ [b]).getD (64 * (m.length / 64) + k) 0 := by
    intro k hk hle
    rw [Vector.getElem_set]
    split
    · next e =>
      have : 64 * (m.length / 64) + k = m.length := by
        have := Nat.div_add_mod m.length 64
        omega
      simp [this]
    · next e =>
      have hlt : k < m.length % 64 := by
        have : k ≠ m.length % 64 := fun hh => e (by rw [hplen]; exact hh.symm)
        omega
      rw [hpend k hk hlt]
      have : 64 * (m.length / 64) + k < m.length := by
        have := Nat.div_add_mod m.length 64
        omega
      simp [List.getElem?_append_left this]
  by_cases hb : ctx.plen.val + 1 = 64
  · have hd : (m ++ [b]).length / 64 = m.length / 64 + 1 := by simp; omega
    have hm : (m ++ [b]).length % 64 = 0 := by simp; omega
    have hp : pushByte ctx b =
        { ctx with acc := compress ctx.acc (ctx.pend.set ctx.plen b), pend := ctx.pend.set ctx.plen b, plen := 0 } := by
      simp only [pushByte, if_pos hb]
    have hv : ctx.pend.set ctx.plen b =
        Vector.ofFn fun i : Fin 64 => (m ++ [b]).getD (64 * (m.length / 64) + i.val) 0 := by
      ext1 k hk
      rw [Vector.getElem_ofFn]
      exact hget k hk (by omega)
    rw [hp]
    refine ⟨?_, hm.symm, fun k _ hlt => by omega⟩
    rw [hd, blocksOf_succ, List.foldl_append, blocksOf_append _ _ _ (by omega), ← hacc, ← hv, List.foldl_cons,
      List.foldl_nil]
  · have hlt := ctx.plen.isLt
    have hd : (m ++ [b]).length / 64 = m.length / 64 := by simp; omega
    have hm : (m ++ [b]).length % 64 = m.length % 64 + 1 := by simp; omega
    have hp : pushByte ctx b = { ctx with pend := ctx.pend.set ctx.plen b, plen := ctx.plen + 1 } := by
      simp only [pushByte, if_neg hb]
    rw [hp]
    refine ⟨?_, ?_, fun k hk hl => ?_⟩
    · rw [hd, blocksOf_append _ _ _ (by omega)]; exact hacc
    · rw [hm, ← hplen]
      show (ctx.plen + 1 : Fin 64).val = _
      rw [Fin.val_add, Fin.val_one]
      omega
    · rw [hd]; exact hget k hk (by omega)

/-- A byte string more (R125, R126). -/
theorem Context.Took.update {acc0 : Acc} {m : List Byte} {ctx : Context} (h : ctx.Took acc0 m) (m' : List Byte) :
    (md5UpdateRaw ctx m').Took acc0 (m ++ m') := by
  induction m' generalizing m ctx with
  | nil => simpa [md5UpdateRaw] using h
  | cons b m' ih =>
    have := ih (h.push b)
    rwa [List.append_assoc] at this

/-- `Took` says nothing of the counter. -/
theorem Context.Took.withCount {acc0 : Acc} {m : List Byte} {ctx : Context} (h : ctx.Took acc0 m) (n : Count) :
    { ctx with count := n }.Took acc0 m := ⟨h.acc, h.plen, h.pend⟩

/-- The context of `md5_init` has taken in nothing (R124). -/
theorem md5Init_took : md5Init.Took iv [] :=
  ⟨rfl, rfl, fun _ _ h => absurd h (Nat.not_lt_zero _)⟩

end Sys2Proof.Machine
end

