-- ==== Sys2Proof/Laws/Apr1.lean ====
section
/-! SUPPORT. The small lemmas of `to64`, of the salt and of the apr1 phases: lengths, and what each phase adds. -/

namespace Sys2Proof.Machine

/-- The low six bits of a natural. -/
theorem and_63 (v : Nat) : v &&& 0x3F = v % 64 := Nat.and_two_pow_sub_one_eq_mod v 6

/-- `to64` emits `n` characters (R151). -/
@[simp] theorem to64_length (v n : Nat) : (to64 v n).length = n := by
  induction n generalizing v with
  | zero => rfl
  | succ n ih => simp [to64, ih]

/-- The first character and the rest (R151). -/
theorem to64_succ (v n : Nat) : to64 v (n + 1) = alphaChar (v % 64) :: to64 (v / 64) n := by
  rw [to64, and_63, Nat.shiftRight_eq_div_pow]

/-- No character of the alphabet is 0x00 or `$` (R150). -/
theorem alpha_clean : ∀ b ∈ alpha, b ≠ 0x00 ∧ b ≠ dollar := by decide +kernel

/-- Reading back the index of a character of the alphabet (R150). -/
theorem idxOf_alphaChar : ∀ v : Fin 64, alpha.idxOf (alphaChar v.val) = v.val := by decide +kernel

/-- An empty update changes nothing (R125). -/
@[simp] theorem md5Update_nil (ctx : Context) : md5Update ctx [] = ctx := by
  simp [md5Update, md5UpdateRaw]

/-- Five groups of four characters and one of two (R174). -/
@[simp] theorem encodeFinal_length (f : List Byte) : (encodeFinal f).length = 22 := by
  simp [encodeFinal, permTriples]

/-- The assembled string, from `final` (R175). -/
theorem apr1String_eq (literal : Bool) (pw sp : List Byte) :
    apr1String literal pw sp =
      magic ++ saltOf sp ++ [dollar] ++ encodeFinal (apr1Work literal pw sp).final := by
  simp only [apr1String, apr1Work]

/-- The copy writes `k` characters and a 0x00 (R176). -/
theorem copyBytes_length (cap : Nat) (S : List Byte) : (copyBytes cap S).length = copyWidth cap S.length := by
  unfold copyBytes copyWidth copyCount
  split
  · rfl
  · simp

/-- A salt has at most 8 characters (R162). -/
theorem saltOf_length (sp : List Byte) : (saltOf sp).length ≤ 8 := by
  have h := (List.takeWhile_prefix (fun b => decide (b ≠ dollar)) (l := (skipMagic sp).take Config.saltMax)).length_le
  have h2 := List.length_take_le Config.saltMax (skipMagic sp)
  exact Nat.le_trans h h2

end Sys2Proof.Machine
end

