-- ==== Sys2Proof/Laws/PerInstr.lean ====
section
/-! SUPPORT. The family `Fields`: the word of a well-formed command has its reserved bits 0, its slot number in the
field CTX (0 where it names no slot), and its opcode in the field OP (spec/30_encoding.md rules R70 and R71). -/

namespace Sys2Proof.Laws.Fields

/-- The opcode of a command (R71). -/
def opcode : Instr → BitVec 4
  | .md5Init _   => 0x1
  | .md5Update _ => 0x2
  | .md5Final _  => 0x3
  | .md5Digest _ => 0x4
  | .to64        => 0x5
  | .apr1Encode  => 0x6
  | .sreset      => 0xF

/-- The three fields of a well-formed command's word (R70, R71). -/
def Statement (i : Instr) : Prop :=
  i.wellFormed = true →
    rsvField (encode i) = 0 ∧ (ctxField (encode i)).toNat = i.slot?.getD 0 ∧ opField (encode i) = opcode i

/-- The fields of the command format (R70). -/
theorem formatC_fields : ∀ (c : Fin 16) (op : BitVec 4),
    rsvField (formatC c.val op) = 0 ∧ (ctxField (formatC c.val op)).toNat = c.val ∧ opField (formatC c.val op) = op := by
  decide +kernel

theorem md5Init (c : Nat) : Statement (.md5Init c) :=
  fun h => formatC_fields ⟨c, of_decide_eq_true h⟩ 0x1

theorem md5Update (c : Nat) : Statement (.md5Update c) :=
  fun h => formatC_fields ⟨c, of_decide_eq_true h⟩ 0x2

theorem md5Final (c : Nat) : Statement (.md5Final c) :=
  fun h => formatC_fields ⟨c, of_decide_eq_true h⟩ 0x3

theorem md5Digest (c : Nat) : Statement (.md5Digest c) :=
  fun h => formatC_fields ⟨c, of_decide_eq_true h⟩ 0x4

theorem to64 : Statement .to64 := fun _ => formatC_fields 0 0x5

theorem apr1Encode : Statement .apr1Encode := fun _ => formatC_fields 0 0x6

theorem sreset : Statement .sreset := fun _ => formatC_fields 0 0xF

end Sys2Proof.Laws.Fields
end

