-- ==== Sys2Proof/Laws/Step.lean ====
section
/-! SUPPORT. What a step, a move of the host and the issue of a command can answer, said once. -/

namespace Sys2Proof.Machine

/-- A step performs the oldest outstanding access. -/
theorem step_cons {s : State} {op : HostOp} {rest : List HostOp} (h : s.pending = op :: rest) :
    step s = hostMove op { s with pending := rest } := by
  rw [step, h]

/-- A host's move while no command is executing. -/
theorem hostMove_idle {s : State} (op : HostOp) (h : s.status.busy = false) : hostMove op s = hostEffect op s := by
  rw [hostMove, if_neg (by simp [h])]

/-- A step of a state whose host offers an access. -/
theorem State.Offers.step_eq {s : State} {op : HostOp} {rest : List HostOp} (h : s.Offers op rest) :
    step s = hostEffect op { s with pending := rest } := by
  rw [step_cons h.1]
  exact hostMove_idle op h.2

/-- A CMD write while ERR = 1 (R204). -/
theorem issue_sticky {w : Word} {s : State} (h : s.status.err = true) (hw : w ≠ sresetWord) :
    issue w s = .next { s with cmd := w } := by
  simp only [issue, h, hw, ne_eq, not_false_eq_true, and_self, if_true]

/-- A CMD write that is executed (R76). -/
theorem issue_run {w : Word} {s : State} (h : s.status.err = false ∨ w = sresetWord) :
    issue w s = complete (runDecoded w ({ s with cmd := w }.setBusy true)) := by
  rw [issue, if_neg]
  rintro ⟨h1, h2⟩
  exact h.elim (fun h => by simp [h] at h1) h2

/-- `complete` answers a next state for a next state only (R76). -/
theorem complete_next {r : Result} {t : State} :
    complete r = .next t ↔ ∃ s, r = .next s ∧ t = s.setBusy false := by
  cases r <;> simp [complete, eq_comm]

/-- Every next state of an issued command (R76, R204). -/
theorem issue_next {w : Word} {s t : State} (h : issue w s = .next t) :
    (s.status.err = true ∧ w ≠ sresetWord ∧ t = { s with cmd := w }) ∨
    (∃ e, decode w = .error e ∧ t = (({ s with cmd := w }.setBusy true).raiseError .illegalCmd).setBusy false) ∨
    (∃ i u, decode w = .ok i ∧ exec i ({ s with cmd := w }.setBusy true) = .next u ∧ t = u.setBusy false) := by
  by_cases hs : s.status.err = true ∧ w ≠ sresetWord
  · rw [issue_sticky hs.1 hs.2] at h
    injection h with h
    exact .inl ⟨hs.1, hs.2, h.symm⟩
  · have hr : s.status.err = false ∨ w = sresetWord := by
      by_cases he : s.status.err = true
      · exact .inr (Decidable.byContradiction fun hw => hs ⟨he, hw⟩)
      · exact .inl (by simpa using he)
    rw [issue_run hr] at h
    obtain ⟨u, hu, rfl⟩ := complete_next.mp h
    simp only [runDecoded] at hu
    cases hd : decode w with
    | error e =>
      simp only [hd, Host.Outcome.next.injEq] at hu
      exact .inr (.inl ⟨e, rfl, by rw [hu]⟩)
    | ok i =>
      simp only [hd] at hu
      exact .inr (.inr ⟨i, u, rfl, hu, rfl⟩)

end Sys2Proof.Machine
end

