-- ==== Sys2Proof/Tests/Slice0.lean ====
section
/-! SUPPORT. Tests: ill-formed commands are refused, words written out from the spec decode, small vectors of
spec/95_test_vectors.md, and a witness for the hypotheses of every statement. -/

namespace Sys2Proof.Tests

open Sys2Proof.Machine

/-! ### Well-formedness: a slot number is a 4-bit field (R70) -/

theorem test_wf_md5Init_refuses_16 : (Instr.md5Init 16).wellFormed = false := by decide
theorem test_wf_md5Update_refuses_16 : (Instr.md5Update 16).wellFormed = false := by decide
theorem test_wf_md5Final_refuses_16 : (Instr.md5Final 16).wellFormed = false := by decide
theorem test_wf_md5Digest_refuses_16 : (Instr.md5Digest 16).wellFormed = false := by decide
theorem test_wf_md5Digest_takes_15 : (Instr.md5Digest 15).wellFormed = true := by decide

/-! ### Decoding: the patterns of R72, bit by bit -/

theorem test_decode_md5Init : decode 0b000000000000000000000000_0010_0001 = .ok (.md5Init 2) := rfl
theorem test_decode_md5Update : decode 0b000000000000000000000000_0101_0010 = .ok (.md5Update 5) := rfl
theorem test_decode_md5Final : decode 0b000000000000000000000000_1010_0011 = .ok (.md5Final 10) := rfl
theorem test_decode_md5Digest : decode 0b000000000000000000000000_0001_0100 = .ok (.md5Digest 1) := rfl
theorem test_decode_to64 : decode 0b000000000000000000000000_0000_0101 = .ok .to64 := rfl
theorem test_decode_apr1Encode : decode 0b000000000000000000000000_0000_0110 = .ok .apr1Encode := rfl
theorem test_decode_sreset : decode 0b000000000000000000000000_0000_1111 = .ok .sreset := rfl
/-- The illegal words of R77. -/
theorem test_decode_illegal :
    decode 0x00000000 = .error .illegalOp ∧ decode 0x00000007 = .error .illegalOp ∧
    decode 0x00000101 = .error .reservedBits ∧ decode 0x0000001F = .error .ctxNotZero := ⟨rfl, rfl, rfl, rfl⟩
theorem test_decodeTableWord : decodeTableWord 32 0x34 = some (.md5Digest 3) := rfl

/-! ### Pure functions (spec/95_test_vectors.md) -/

/-- §2.2. -/
theorem test_rotl :
    rotl 0x80000001 1 = 0x00000003 ∧ rotl 0x12345678 4 = 0x23456781 ∧ rotl 0x00000001 31 = 0x80000000 := by decide
/-- §2.1. -/
theorem test_le64_low_word_first : le64 0x0000000100000000 = [0, 0, 0, 0, 1, 0, 0, 0] := by decide
/-- §2.6: 56 bytes 0x41 take two blocks. -/
theorem test_md5_two_blocks : md5 (List.replicate 56 0x41) =
    [0xa2, 0xf3, 0xe2, 0x02, 0x49, 0x31, 0xbd, 0x47, 0x05, 0x55, 0x00, 0x2a, 0xa5, 0xcc, 0xc0, 0x10] := by
  decide +kernel
/-- §3.1: 0x12345678 in six characters is `sN3BG.`. -/
theorem test_to64_six : to64 0x12345678 6 = [0x73, 0x4e, 0x33, 0x42, 0x47, 0x2e] := by decide
/-- "password". -/
def password : List Byte := [0x70, 0x61, 0x73, 0x73, 0x77, 0x6f, 0x72, 0x64]
/-- "abcdefgh". -/
def abcdefgh : List Byte := [0x61, 0x62, 0x63, 0x64, 0x65, 0x66, 0x67, 0x68]
/-- §3.5: `final` after phase 6 of "password" with salt "abcdefgh". -/
def final6 : List Byte :=
  [0xee, 0xd8, 0x50, 0x19, 0x27, 0x03, 0xcc, 0xe1, 0x0b, 0x34, 0x70, 0x0e, 0x5d, 0x81, 0x96, 0xf2]
/-- §3.5: phases 2 to 6. -/
theorem test_apr1_phases_2_to_6 :
    md5Digest (mixBits 8 8 0x00 0x70
      (seedChunks (md5Update md5Init (password ++ magic ++ abcdefgh)) (md5 (password ++ abcdefgh ++ password)) 8)) =
    final6 := by
  decide +kernel
/-- §3.5: rounds 0 and 999 of phase 7, the latter from the value after round 998. -/
theorem test_apr1_rounds :
    stretchRound password abcdefgh final6 0 =
      [0xde, 0x37, 0x29, 0x6f, 0xc7, 0xaf, 0x2b, 0x05, 0x19, 0xf4, 0x2a, 0xd7, 0x82, 0xa0, 0x18, 0x2c] ∧
    stretchRound password abcdefgh
        [0x46, 0x4c, 0x12, 0x2a, 0x03, 0x35, 0xfd, 0xe6, 0x12, 0x13, 0xfc, 0xce, 0x5c, 0xf0, 0xd3, 0xd1] 999 =
      [0x43, 0x1a, 0x2a, 0x68, 0x53, 0xfb, 0xc3, 0x27, 0x83, 0x05, 0x5b, 0xd0, 0x51, 0x7d, 0xa9, 0xe6] := by
  decide +kernel
/-- §3.5: the 22 characters `FBwExRW4dCc8aL.OvjpIE1`. -/
theorem test_apr1_encodeFinal : encodeFinal
      [0x43, 0x1a, 0x2a, 0x68, 0x53, 0xfb, 0xc3, 0x27, 0x83, 0x05, 0x5b, 0xd0, 0x51, 0x7d, 0xa9, 0xe6] =
    [0x46, 0x42, 0x77, 0x45, 0x78, 0x52, 0x57, 0x34, 0x64, 0x43, 0x63, 0x38, 0x61, 0x4c, 0x2e, 0x4f,
      0x76, 0x6a, 0x70, 0x49, 0x45, 0x31] := by
  decide
/-- §3.7: capacity 0 writes nothing, capacity 2 one character and the 0x00. -/
theorem test_apr1_copy : copyBytes 0 magic = [] ∧ copyBytes 2 magic = [0x24, 0x00] ∧ copyWidth 64 37 = 38 := by
  decide

/-! ### One step of each command (spec/95_test_vectors.md §2.8, §3.2, §3.8, §4) -/

/-- Whether a result is a next state with a property. -/
def nextHas (r : Result) (p : State → Bool) : Bool :=
  match r with
  | .next t => p t
  | .fault _ => false
  | .refused _ => false

/-- A state after reset, with arguments, a BUF and a first slot. -/
def small (a0 a1 a4 : Word) (m : Memory) (x : Slot) : State :=
  { State.reset with arg0 := a0, arg1 := a1, arg4 := a4, buf := m, ctx := State.reset.ctx.set 0 x }

/-- A slot just initialised. -/
def fresh : Slot := ⟨md5Init, .initialized⟩

/-- BUF with "abc" at address 0x10. -/
def abcAt16 : Memory := Memory.writeBytes [] 0x10 [0x61, 0x62, 0x63]

/-- The slot after an update by "abc". -/
def tookAbc : Slot := ⟨md5Update md5Init [0x61, 0x62, 0x63], .accumulating⟩

/-- One command word, run as the next step from `s`, leads to a next state with property `p`. -/
def runs (s : State) (w : Nat) (p : State → Bool) : Bool := nextHas (step (s.withFetchWord 32 w)) p

/-- MD5_INIT of slot 2; of slot 4, CTX_RANGE. -/
theorem test_md5Init :
    runs State.reset 0x00000021 (fun t =>
      t.slot 2 == ⟨⟨⟨0x67452301, 0xefcdab89, 0x98badcfe, 0x10325476⟩, 0, Vector.replicate 64 0, 0⟩, .initialized⟩ &&
      t.cmd == 0x21 && t.status.word == 0) = true ∧
    runs State.reset 0x00000041 (fun t => t.status.word == 0x00000202 && t.ctx == State.reset.ctx) = true := by
  decide +kernel

/-- MD5_UPDATE by "abc" (R131's example); an address sum past 2^32 does not wrap. -/
theorem test_md5Update :
    runs (small 0x10 3 0 abcAt16 fresh) 0x00000002 (fun t =>
      (t.slot 0).ctx.plen == 3 && (t.slot 0).ctx.count == 24 && (t.slot 0).ctx.acc == iv &&
      (t.slot 0).life == .accumulating && (t.slot 0).ctx.pend[2] == 0x63) = true ∧
    runs (small 0xFFFFFFFF 2 0 [] fresh) 0x00000002 (fun t => t.status.word == 0x00000402) = true := by
  decide +kernel

/-- MD5_FINAL after "abc" at the end of BUF (R132's example); of a slot without a stream, CTX_STATE. -/
theorem test_md5Final :
    runs (small 0 0 4080 [] tookAbc) 0x00000003 (fun t =>
      t.buf.read 4080 == some 0x90 && t.buf.read 4095 == some 0x72 && t.result == 16 &&
      t.slot 0 == ⟨Context.zero, .finalized⟩) = true ∧
    runs State.reset 0x00000003 (fun t => t.status.word == 0x00000502 && t.result == 0) = true := by
  decide +kernel

/-- MD5_DIGEST of "abc" onto its own input (R54); a `dst` out of bounds leaves the slot (R79). -/
theorem test_md5Digest :
    runs (small 0x10 3 0x11 abcAt16 fresh) 0x00000004 (fun t =>
      t.buf.read 0x10 == some 0x61 && t.buf.read 0x11 == some 0x90 && t.buf.read 0x20 == some 0x72 &&
      (t.slot 0).life == .finalized) = true ∧
    runs (small 0x10 3 4081 abcAt16 fresh) 0x00000004 (fun t =>
      t.status.word == 0x00000402 && t.slot 0 == fresh) = true := by
  decide +kernel

/-- TO64 of R153's example; BAD_ARG comes before BOUNDS. -/
theorem test_to64 :
    runs (small 0x00ABCDEF 4 0x200 [] fresh) 0x00000005 (fun t =>
      t.buf == [(0x200, 0x6a), (0x201, 0x72), (0x202, 0x77), (0x203, 0x65)] && t.result == 4) = true ∧
    runs (small 5 7 5000 [] fresh) 0x00000005 (fun t => t.status.word == 0x00000302 && t.buf == []) = true := by
  decide +kernel

/-- APR1_ENCODE with a salt of 8 bytes, `dst = 4059` and `cap = 64`: BOUNDS (§3.8). -/
theorem test_apr1Encode :
    runs { small 0 0 4059 (Memory.writeBytes [] 0 abcdefgh) fresh with arg2 := 0, arg3 := 8, arg5 := 64 } 0x00000006
      (fun t => t.status.word == 0x00000402) = true := by
  decide +kernel

/-- APR1_ENCODE of an unwritten salt source ends the run (R52). -/
theorem test_apr1Encode_unwritten :
    step (State.withFetchWord { State.reset with arg3 := 1 } 32 0x00000006) = .fault (.bufUnwritten 0) := rfl

/-- SRESET after CTX_STATE; a word with CTX not 0 is not SRESET and is ignored while ERR = 1 (R190). -/
theorem test_sreset :
    runs { small 1 2 3 abcAt16 tookAbc with status := ⟨false, true, .ctxState⟩, result := 7 } 0x0000000F (fun t =>
      t.status.word == 0 && t.result == 0 && t.ctx == State.reset.ctx && t.arg1 == 2 && t.buf == abcAt16 &&
      t.cmd == 0xF) = true ∧
    runs { small 1 2 3 abcAt16 tookAbc with status := ⟨false, true, .ctxState⟩ } 0x0000001F (fun t =>
      t.status.word == 0x00000502 && t.cmd == 0x1F && t.slot 0 == tookAbc) = true := by
  decide +kernel

/-! ### Witnesses: every statement's hypotheses are met together -/

/-- A state whose host offers one access. -/
def offering (op : HostOp) (s : State) : State := { s with pending := [op] }

theorem offering_offers (op : HostOp) (s : State) (h : s.status.busy = false) : (offering op s).Offers op [] :=
  ⟨rfl, h⟩

/-- The sticky state after CTX_STATE. -/
def stuck : State := { State.reset with status := ⟨false, true, .ctxState⟩ }

/-- BUF with "abc" at 0x10, slot 0 just initialised, `(src, len) = (0x10, 3)`, `dst = 4080`, the last range of 16
bytes that is in bounds. -/
def ready : State := small 0x10 3 4080 abcAt16 fresh

/-- A state for APR1_ENCODE: password "abc" of length 3, salt source "ab" of 5 bytes with a 0x00 after it. -/
def apr1Ready (dst cap : Word) : State :=
  { small 0x10 3 dst (abcAt16.writeBytes 0x20 [0x61, 0x62, 0x00]) fresh with arg2 := 0x20, arg3 := 5, arg5 := cap }

theorem ready_holds : ready.buf.Holds ready.a0 [0x61, 0x62, 0x63] :=
  (Memory.readBytes_ok (n := 3).mp rfl).2

theorem apr1Ready_pw (dst cap : Word) :
    (apr1Ready dst cap).buf.HoldsText (apr1Ready dst cap).a0 (apr1Ready dst cap).a1 [0x61, 0x62, 0x63] :=
  Memory.text_ok.mp rfl

theorem apr1Ready_sp (dst cap : Word) :
    (apr1Ready dst cap).buf.HoldsText (apr1Ready dst cap).a2 (apr1Ready dst cap).a3 [0x61, 0x62] :=
  Memory.text_ok.mp rfl

theorem witness_DecodeInvertsEncode :
    decode 0x000000F4 = .ok (.md5Digest 15) ∧ (Instr.md5Digest 15).wellFormed = true ∧
      encode (.md5Digest 15) = 0x000000F4 := ⟨rfl, rfl, rfl⟩

theorem witness_WordSelectsAtMostOneRow :
    (∀ r ∈ opcodeTable, (0x000000FF : Word) &&& r.mask ≠ r.pattern) ∧
    (∃ r ∈ opcodeTable, (0x000000F1 : Word) &&& r.mask = r.pattern) := by decide

theorem witness_IllegalWordRaisesIllegalCmd :
    (offering (.writeReg 4 0x00 0x0000001F) State.reset).Offers (.writeReg 4 0x00 0x0000001F) [] ∧
    (offering (.writeReg 4 0x00 0x0000001F) State.reset).status.err = false ∧
    ∃ e, decode 0x0000001F = .error e :=
  ⟨offering_offers _ _ rfl, rfl, .ctxNotZero, rfl⟩

theorem witness_StepRunsDecodedCommand :
    (∃ (s : State) (rest : List HostOp), s.Offers (.writeReg 4 0x00 0x00000001) rest ∧ s.status.err = false ∧
      decode 0x00000001 = .ok (.md5Init 0)) ∧
    (∃ (s : State) (rest : List HostOp), s.Offers (.writeReg 4 0x00 0x0000000F) rest ∧ s.status.err = true ∧
      decode 0x0000000F = .ok .sreset) :=
  ⟨⟨offering _ State.reset, [], offering_offers _ _ rfl, rfl, rfl⟩,
    ⟨offering _ stuck, [], offering_offers _ _ rfl, rfl, rfl⟩⟩

theorem witness_StickyErrorIgnoresCommands :
    (∃ (s : State) (rest : List HostOp), s.Offers (.writeReg 4 0x00 0x0000001F) rest ∧ s.status.err = true ∧
      (0x0000001F : Word) ≠ 0x0000000F) ∧
    (∃ s t, step s = .next t ∧ s.status.err = true ∧ t.status.err = false) ∧
    (∃ s t, step s = .next t ∧ s.status.err = true ∧ t.status.err = true) :=
  ⟨⟨offering _ stuck, [], offering_offers _ _ rfl, rfl, by decide⟩,
    ⟨offering (.writeReg 4 0x00 0x0000000F) stuck, _, rfl, rfl, rfl⟩, ⟨stuck, stuck, rfl, rfl, rfl⟩⟩

theorem witness_FailingCommandChangesOnlyStatus :
    (∃ (s : State) (rest : List HostOp), s.Offers (.writeReg 4 0x00 0x00000002) rest ∧ s.status.err = false ∧
      decode 0x00000002 = .ok (.md5Update 0) ∧ check (.md5Update 0) s = .ok .ctxState) ∧
    (∃ (s : State) (rest : List HostOp), s.Offers (.writeReg 4 0x00 0x00000000) rest ∧ s.status.err = false ∧
      decode 0x00000000 = .error .illegalOp) :=
  ⟨⟨offering _ State.reset, [], offering_offers _ _ rfl, rfl, rfl, rfl⟩,
    ⟨offering _ State.reset, [], offering_offers _ _ rfl, rfl, rfl⟩⟩

/-- An error of every code that the check can return, each where the operand is just past its bound; and no error. -/
theorem witness_ErrorsFollowFixedOrder :
    firstError (.md5Init 4) State.reset [] = .ctxRange ∧
    firstError .to64 (small 0 7 5000 [] fresh) [] = .badArg ∧
    firstError (.md5Update 0) (small 4090 7 0 [] Slot.reset) [] = .bounds ∧
    firstError (.md5Final 0) (small 0 0 4081 [] Slot.reset) [] = .bounds ∧
    firstError (.md5Final 0) (small 0 0 4080 [] Slot.reset) [] = .ctxState ∧
    firstError .apr1Encode (small 4090 7 0 [] fresh) [] = .bounds ∧
    (apr1Ready 4065 64).status.err = false ∧ saltOf [0x61, 0x62] = [0x61, 0x62] ∧
    firstError .apr1Encode (apr1Ready 4065 64) [0x61, 0x62] = .bounds ∧
    firstError .apr1Encode (apr1Ready 4064 64) [0x61, 0x62] = .none := by
  refine ⟨?_, ?_, ?_, ?_, ?_, ?_, ?_, ?_, ?_, ?_⟩ <;> rfl

theorem witness_InitStartsStream :
    (∃ t, step (offering (.writeReg 4 0x00 0x00000001) (small 0 0 0 [] ⟨Context.zero, .finalized⟩)) = .next t ∧
      ((small 0 0 0 [] ⟨Context.zero, .finalized⟩).slot 0).life = .finalized ∧ (t.slot 0).life.live = true) ∧
    (3 : Nat) < 16 ∧ 3 < State.reset.params.numCtx ∧ State.reset.params.numCtx ≤ 4 ∧
    State.reset.status.err = false :=
  ⟨⟨_, rfl, rfl, rfl⟩, by decide⟩

theorem witness_UpdateAppendsToStream :
    0 < ready.params.numCtx ∧ ready.a0 + ready.a1 ≤ ready.params.bufBytes ∧ (ready.slot 0).life.live = true ∧
    [0x61, 0x62, 0x63].length = ready.a1 ∧ ready.buf.Holds ready.a0 [0x61, 0x62, 0x63] :=
  ⟨by decide, by decide, rfl, rfl, ready_holds⟩

theorem witness_FinalWritesDigest :
    0 < ready.params.numCtx ∧ ready.a4 + 16 ≤ ready.params.bufBytes ∧ (ready.slot 0).life.live = true ∧
    ready.params.scrubMode = .full := ⟨by decide, by decide, rfl, rfl⟩

theorem witness_DigestHashesRange :
    0 < ready.params.numCtx ∧ ready.a0 + ready.a1 ≤ ready.params.bufBytes ∧ ready.a4 + 16 ≤ ready.params.bufBytes ∧
    [0x61, 0x62, 0x63].length = ready.a1 ∧ ready.buf.Holds ready.a0 [0x61, 0x62, 0x63] :=
  ⟨by decide, by decide, by decide, rfl, ready_holds⟩

theorem witness_To64WritesCharacters :
    (small 5 6 4090 [] fresh).a1 ≤ 6 ∧
    (small 5 6 4090 [] fresh).a4 + (small 5 6 4090 [] fresh).a1 ≤ (small 5 6 4090 [] fresh).params.bufBytes ∧
    6 < (small 5 7 0 [] fresh).a1 ∧
    (small 5 6 4091 [] fresh).params.bufBytes < (small 5 6 4091 [] fresh).a4 + (small 5 6 4091 [] fresh).a1 := by
  decide

/-- Capacity 64 (the string is copied whole), 1 and 0. -/
theorem witness_Apr1EncodeWritesString :
    (apr1Ready 4064 64).a0 + (apr1Ready 4064 64).a1 ≤ (apr1Ready 4064 64).params.bufBytes ∧
    (apr1Ready 4064 64).a2 + (apr1Ready 4064 64).a3 ≤ (apr1Ready 4064 64).params.bufBytes ∧
    (apr1Ready 4064 64).buf.HoldsText (apr1Ready 4064 64).a0 (apr1Ready 4064 64).a1 [0x61, 0x62, 0x63] ∧
    (apr1Ready 4064 64).buf.HoldsText (apr1Ready 4064 64).a2 (apr1Ready 4064 64).a3 [0x61, 0x62] ∧
    (∀ S : List Byte, S.length = 31 → (apr1Ready 4064 64).a4 + (S.take (min 63 S.length) ++ [0x00]).length ≤
      (apr1Ready 4064 64).params.bufBytes) ∧
    (apr1Ready 4095 1).a4 + ([] ++ [(0x00 : Byte)]).length ≤ (apr1Ready 4095 1).params.bufBytes ∧
    (apr1Ready 4096 0).a4 + ([] : List Byte).length ≤ (apr1Ready 4096 0).params.bufBytes := by
  refine ⟨by decide, by decide, apr1Ready_pw _ _, apr1Ready_sp _ _, fun S h => ?_, by decide, by decide⟩
  rw [List.length_append, List.length_take, h]
  decide

theorem witness_SresetClearsErrorsAndSlots :
    (offering (.writeReg 4 0x00 0x0000000F) stuck).Offers (.writeReg 4 0x00 0x0000000F) [] ∧
    (offering (.writeReg 4 0x00 0x0000001F) stuck).Offers (.writeReg 4 0x00 0x0000001F) [] ∧
    (offering (.writeReg 4 0x00 0x0000001F) stuck).status.err = true ∧ (0x0000001F : Word) ≠ 0x0000000F :=
  ⟨offering_offers _ _ rfl, offering_offers _ _ rfl, rfl, by decide⟩

/-- One unwritten byte at the end of the range; an unwritten salt source; an unwritten password. -/
theorem witness_UnwrittenByteFaults :
    (∃ k, k < (small 0x10 4 4080 abcAt16 fresh).a1 ∧
      (small 0x10 4 4080 abcAt16 fresh).buf.read ((small 0x10 4 4080 abcAt16 fresh).a0 + k) = none) ∧
    (∀ sp, ¬ (Memory.HoldsText [] 0 1 sp)) ∧
    (∃ s : State, (∃ sp, s.buf.HoldsText s.a2 s.a3 sp ∧
        s.a4 + copyWidth s.a5 (29 + (saltOf sp).length) ≤ s.params.bufBytes) ∧
      s.a0 + s.a1 ≤ s.params.bufBytes ∧ s.a2 + s.a3 ≤ s.params.bufBytes ∧ ∀ pw, ¬ s.buf.HoldsText s.a0 s.a1 pw) := by
  refine ⟨⟨3, by decide, rfl⟩, fun sp h => ?_, ⟨{ State.reset with arg1 := 1 }, ⟨[], Memory.text_ok.mp rfl, ?_⟩,
    by decide, by decide, fun pw h => ?_⟩⟩
  · cases Memory.text_ok.mpr h
  · decide
  · cases Memory.text_ok.mpr h

theorem witness_CommandsKeepRegisters : ∃ t, exec .sreset stuck = .next t := ⟨_, rfl⟩

/-- TO64 of six characters, an address just past them; APR1_ENCODE with its salt, an address just past the copy. -/
theorem witness_CommandsStoreOnlyToTheirRange :
    (∃ t, exec .to64 (small 5 6 0x100 [] fresh) = .next t) ∧
    (storeRange .to64 (small 5 6 0x100 [] fresh) []).1 + (storeRange .to64 (small 5 6 0x100 [] fresh) []).2 ≤ 0x106 ∧
    (∃ t, exec .apr1Encode (apr1Ready 4064 64) = .next t) ∧
    (∃ sp, (apr1Ready 4064 64).buf.HoldsText (apr1Ready 4064 64).a2 (apr1Ready 4064 64).a3 sp ∧
      [0x61, 0x62] = saltOf sp) ∧
    (storeRange .apr1Encode (apr1Ready 4064 64) [0x61, 0x62]) = (4064, 32) := by
  refine ⟨⟨_, rfl⟩, by decide, ⟨_, (exec_completes ?_).mpr ⟨_, _, apr1Ready_pw _ _, apr1Ready_sp _ _, rfl⟩⟩,
    ⟨_, apr1Ready_sp _ _, rfl⟩, rfl⟩
  exact ⟨by decide, by decide, _, apr1Ready_sp _ _, by decide⟩

theorem witness_CommandsKeepOtherSlots :
    Instr.md5Init 0 ≠ .sreset ∧ (∃ t, exec (.md5Init 0) ready = .next t) ∧ (Instr.md5Init 0).slot? ≠ some 1 :=
  ⟨by decide, ⟨_, rfl⟩, by decide⟩

theorem witness_CommandsIgnoreOtherSlots :
    Instr.md5Init 0 ≠ .sreset ∧ (ready.ctx.set 3 tookAbc).length = ready.ctx.length ∧
    ∀ c, (Instr.md5Init 0).slot? = some c → (ready.ctx.set 3 tookAbc)[c]? = ready.ctx[c]? :=
  ⟨by decide, List.length_set, fun c h => by cases h; rfl⟩

/-- Two different states that a host cannot tell apart: a slot without a stream that is not zero. -/
theorem witness_HiddenStateIsUnobservable :
    ∃ s t : State, s ≠ t ∧ s.visible = t.visible :=
  ⟨{ State.reset with ctx := [⟨md5Init, .uninit⟩] }, { State.reset with ctx := [⟨Context.zero, .uninit⟩] },
    by decide, rfl⟩

theorem witness_ResetSatisfiesInvariant : Config.defaults.Legal := by decide

/-- The invariant holds of a state whose slot holds a stream. -/
theorem witness_StepKeepsInvariant : ready.Inv ∧ ∃ t, step ready = .next t := by
  refine ⟨⟨by decide, rfl, ?_, ?_, ?_, rfl, by decide, rfl⟩, ⟨_, rfl⟩⟩
  · intro x hx
    have : x = fresh ∨ x = Slot.reset := by
      simp only [ready, small, State.reset, State.resetWith, Config.defaults, List.replicate, List.set] at hx
      simpa using hx
    rcases this with rfl | rfl <;> rfl
  · decide
  · decide

/-- One step for each move of R32. -/
theorem witness_LifecycleMovesOnlyByItsCommands :
    (∃ t, step (offering .reset ready) = .next t ∧ (t.slot 0).life ≠ (ready.slot 0).life) ∧
    (∃ t, step (offering (.writeReg 4 0x00 0x0000000F) ready) = .next t ∧ (t.slot 0).life = .uninit) ∧
    (∃ t, step (offering (.writeReg 4 0x00 0x00000011) ready) = .next t ∧ (t.slot 1).life ≠ (ready.slot 1).life) :=
  ⟨⟨_, rfl, by decide⟩, ⟨_, rfl, rfl⟩, ⟨_, rfl, by decide⟩⟩

theorem witness_HostRegisterRead :
    (offering (.readReg 4 0x24) ready).Offers (.readReg 4 0x24) [] ∧
    (offering (.readReg 4 0x0C) ready).Offers (.readReg 4 0x0C) [] ∧
    (0x0C : Nat) ∉ [0x00, 0x04, 0x08, 0x10, 0x14, 0x18, 0x1C, 0x20, 0x24] ∧
    (offering (.readReg 2 0x24) ready).Offers (.readReg 2 0x24) [] :=
  ⟨offering_offers _ _ rfl, offering_offers _ _ rfl, by decide, offering_offers _ _ rfl⟩

theorem witness_HostRegisterWrite :
    (offering (.writeReg 4 0x24 7) ready).Offers (.writeReg 4 0x24 7) [] ∧
    (offering (.writeReg 4 0x28 7) ready).Offers (.writeReg 4 0x28 7) [] ∧
    (0x28 : Nat) ∉ [0x00, 0x10, 0x14, 0x18, 0x1C, 0x20, 0x24] ∧
    (offering (.writeReg 1 0x10 7) ready).Offers (.writeReg 1 0x10 7) [] :=
  ⟨offering_offers _ _ rfl, offering_offers _ _ rfl, by decide, offering_offers _ _ rfl⟩

/-- The last byte of BUF, the first address past it, a written and an unwritten byte. -/
theorem witness_HostBufferPort :
    (offering (.writeBuf 1 4095 7) ready).Offers (.writeBuf 1 4095 7) [] ∧ 4095 < ready.params.bufBytes ∧
    (offering (.readBuf 1 4096) ready).Offers (.readBuf 1 4096) [] ∧ ready.params.bufBytes ≤ 4096 ∧
    ready.buf.read 0x10 = some 0x61 ∧ ready.buf.read 4095 = none :=
  ⟨offering_offers _ _ rfl, by decide, offering_offers _ _ rfl, by decide, rfl, rfl⟩

theorem witness_HardwareResetValues : (offering .reset ready).Offers .reset [] := offering_offers _ _ rfl

theorem witness_BusyCoreTakesOnlyStatusReads :
    ∃ s : State, s.pending = [.readReg 4 0x08] ∧ s.status.busy = true ∧ HostOp.readReg 4 0x08 ≠ .readReg 4 0x04 :=
  ⟨offering (.readReg 4 0x08) { State.reset with status := ⟨true, false, .none⟩ }, rfl, rfl, by decide⟩

theorem witness_IdleCoreWaits : State.reset.pending = [] := rfl

theorem witness_CodecLaws : (List.replicate 8 (0x80 : Byte)).length % 4 = 0 := by decide

theorem witness_CompressOfAbcBlock :
    ∃ v : Vector Byte 64, v.toList = [0x61, 0x62, 0x63, 0x80] ++ List.replicate 52 0 ++ le64 24 :=
  ⟨⟨([0x61, 0x62, 0x63, 0x80] ++ List.replicate 52 0 ++ le64 24).toArray, rfl⟩, rfl⟩

/-- The three-command sequence of R79 on a slot without a stream, and a digest that does not fit. -/
theorem witness_OneShotEqualsStream :
    let s := small 0x10 3 4080 abcAt16 Slot.reset
    let s' := small 0x10 3 4081 abcAt16 Slot.reset
    s.status.err = false ∧
    (∃ s1 s2 s3, exec (.md5Init 0) s = .next s1 ∧ exec (.md5Update 0) s1 = .next s2 ∧ s2.status.err = false ∧
      exec (.md5Final 0) s2 = .next s3 ∧ s3.status.err = false) ∧
    s'.params.bufBytes < s'.a4 + 16 ∧
    ∃ s1 s2, exec (.md5Init 0) s' = .next s1 ∧ exec (.md5Update 0) s1 = .next s2 ∧ s2.status.err = false :=
  ⟨rfl, ⟨_, _, _, rfl, rfl, rfl, rfl, rfl⟩, by decide, ⟨_, _, rfl, rfl, rfl⟩⟩

theorem witness_To64Properties : (0xFF : Nat) < 2 ^ (6 * 2) ∧ (2 : Nat) ≤ 6 ∧ (63 : Nat) < 2 ^ (6 * 1) := by decide

theorem witness_SaltExtraction :
    ¬ magic <+: [0x24, 0x61, 0x70, 0x72, 0x31] ∧ (0x00 : Byte) ∉ [0x24, 0x61, 0x70, 0x72, 0x31] ∧
    ∃ m : Memory, m.Holds 0 [0x61, 0x62, 0x00, 0x63, 0x64] :=
  ⟨by decide, by decide, Memory.writeBytes [] 0 [0x61, 0x62, 0x00, 0x63, 0x64], (Memory.readBytes_ok (n := 5).mp rfl).2⟩

theorem witness_SeedChunksFeedPasswordLength : (List.replicate 16 (0x3b : Byte)).length = 16 := by decide

theorem witness_StretchingSchedule : final6.length = 16 := by decide

theorem witness_PermutedEncodingKeepsDigest : ∃ f g : List Byte, f.length = 16 ∧ g.length = 16 ∧
    encodeFinal f = encodeFinal g := ⟨final6, final6, by decide, by decide, rfl⟩

theorem witness_Apr1StringShape : (0x00 : Byte) ∉ abcdefgh := by decide

theorem witness_PriorHashGivesSameString : abcdefgh.length ≤ 8 ∧ (0x24 : Byte) ∉ abcdefgh := by decide

/-- A capacity that truncates, one that does not, and none. -/
theorem witness_Apr1OutputTruncation :
    (apr1Ready 4064 64).buf.HoldsText (apr1Ready 4064 64).a0 (apr1Ready 4064 64).a1 [0x61, 0x62, 0x63] ∧
    (apr1Ready 4064 64).buf.HoldsText (apr1Ready 4064 64).a2 (apr1Ready 4064 64).a3 [0x61, 0x62] ∧
    (∀ s ∈ [apr1Ready 4064 64, apr1Ready 4090 6, apr1Ready 4096 0],
      s.a0 + s.a1 ≤ s.params.bufBytes ∧ s.a2 + s.a3 ≤ s.params.bufBytes ∧
      s.a4 + (if s.a5 = 0 then 0 else min (s.a5 - 1) (29 + (saltOf [0x61, 0x62]).length) + 1) ≤
        s.params.bufBytes) :=
  ⟨apr1Ready_pw _ _, apr1Ready_sp _ _, by decide⟩

end Sys2Proof.Tests
end

section
/-! SUPPORT. The statements about the state and the ports: what `onNext` does to a command, what a register access
answers, and what a step of the machine can do, said once. -/

namespace Sys2Proof.Machine

/-! ### Outcomes passed through a function -/

@[simp] theorem onNext_next (f : State → State) (s : State) : onNext f (.next s) = .next (f s) := rfl
@[simp] theorem onNext_fault (f : State → State) (e : Fault) : onNext f (.fault e) = .fault e := rfl
@[simp] theorem onNext_refused (f : State → State) (r : Refusal) : onNext f (.refused r) = .refused r := rfl

/-- A function that commutes with raising an error passes through `afterCheck` (R76). -/
theorem onNext_afterCheck {f : State → State} {s : State} (hf : ∀ e, f (s.raiseError e) = (f s).raiseError e)
    (e : Except Fault ErrorCode) (effect : Result) :
    onNext f (afterCheck e s effect) = afterCheck e (f s) (onNext f effect) := by
  rcases e with x | c
  · rfl
  · by_cases hc : c = .none
    · subst hc; rfl
    · simp only [afterCheck_raise hc, onNext_next, hf]

theorem onNext_withBytes (f : State → State) (r : Except Fault (List Byte)) (k : List Byte → Result) :
    onNext f (withBytes r k) = withBytes r fun m => onNext f (k m) := by
  cases r <;> rfl

/-- Only a check that finds no error looks at the effect (R76). -/
theorem afterCheck_congr {e : Except Fault ErrorCode} {s : State} {x y : Result} (h : e = .ok .none → x = y) :
    afterCheck e s x = afterCheck e s y := by
  rcases e with f | c
  · rfl
  · by_cases hc : c = .none
    · subst hc; exact h rfl
    · simp only [afterCheck_raise hc]

theorem complete_eq_onNext (r : Result) : complete r = onNext (State.setBusy · false) r := by
  cases r <;> rfl

/-! ### The register port -/

/-- A register write of another width, or to an offset that is neither CMD nor an argument register, is ignored
(R23, R57). -/
theorem writeReg_ignored {width offset : Nat} (h : width ≠ 4 ∨ offset ∉ [0x00, 0x10, 0x14, 0x18, 0x1C, 0x20, 0x24])
    (w : Word) (s : State) : writeReg width offset w s = .next s := by
  unfold writeReg
  split
  · have hoff := h.resolve_left (not_not_intro ‹_›)
    split
    rotate_right
    · rfl
    all_goals exact absurd (by decide) hoff
  · rfl

/-- A register read of another width, or of an offset that holds no register, gets 0 (R23, R57). -/
theorem State.readReg_unmapped {width offset : Nat}
    (h : width ≠ 4 ∨ offset ∉ [0x00, 0x04, 0x08, 0x10, 0x14, 0x18, 0x1C, 0x20, 0x24]) (s : State) :
    s.readReg width offset = 0 := by
  unfold State.readReg
  split
  · have hoff := h.resolve_left (not_not_intro ‹_›)
    split
    rotate_right
    · rfl
    all_goals exact absurd (by decide) hoff
  · rfl

/-! ### What a step can do -/

/-- With no access outstanding the core waits (R216). -/
theorem step_nil {s : State} (h : s.pending = []) : step s = .next s := by
  rw [step, h]

/-- What every access of the host but a CMD write and the reset input does: it changes at most the argument registers,
the replies and the draws, and one byte inside BUF (R25, R57). -/
def PlainAccess (s t : State) : Prop :=
  t = { s with
    arg0 := t.arg0, arg1 := t.arg1, arg2 := t.arg2, arg3 := t.arg3, arg4 := t.arg4, arg5 := t.arg5
    buf := t.buf, replies := t.replies, draws := t.draws } ∧
  (t.buf = s.buf ∨ ∃ a b, a < s.params.bufBytes ∧ t.buf = s.buf.write a b)

/-- A register write is a CMD write, or an update that makes a plain access, in any state, and touches no hidden part
of it (R23, R25, R57). -/
theorem writeReg_cases (width offset : Nat) (w : Word) :
    (width = 4 ∧ offset = 0x00) ∨
    ∃ g : State → State, (∀ s, writeReg width offset w s = .next (g s)) ∧ (∀ s, PlainAccess s (g s)) ∧
      ∀ s, (g s).visible = g s.visible := by
  by_cases hm : width = 4 ∧ offset ∈ [0x00, 0x10, 0x14, 0x18, 0x1C, 0x20, 0x24]
  · obtain ⟨rfl, hoff⟩ := hm
    simp only [List.mem_cons, List.not_mem_nil, or_false] at hoff
    rcases hoff with rfl | rfl | rfl | rfl | rfl | rfl | rfl
    · exact .inl ⟨rfl, rfl⟩
    all_goals exact .inr ⟨_, fun _ => rfl, fun _ => ⟨rfl, .inl rfl⟩, fun _ => rfl⟩
  · exact .inr ⟨id, writeReg_ignored (Decidable.not_and_iff_not_or_not.mp hm) w, fun _ => ⟨rfl, .inl rfl⟩, fun _ => rfl⟩

theorem State.hostStore_access (s : State) (width addr : Nat) (b : Byte) : PlainAccess s (s.hostStore width addr b) := by
  unfold State.hostStore
  split
  · next h => exact ⟨rfl, .inr ⟨addr, b, h.2, rfl⟩⟩
  · exact ⟨rfl, .inl rfl⟩

theorem State.hostFetch_access (s : State) (width addr : Nat) : PlainAccess s (s.hostFetch width addr) := by
  unfold State.hostFetch
  split
  · split <;> exact ⟨rfl, .inl rfl⟩
  · exact ⟨rfl, .inl rfl⟩

/-- The inversion lemma of the host's accesses: a CMD write, the reset input, or a plain access (R250). -/
theorem hostEffect_next {op : HostOp} {s t : State} (h : hostEffect op s = .next t) :
    (∃ w, op = .writeReg 4 0x00 w ∧ issue w s = .next t) ∨ (op = .reset ∧ t = s.hardReset) ∨ PlainAccess s t := by
  cases op with
  | writeReg width offset w =>
    rcases writeReg_cases width offset w with ⟨rfl, rfl⟩ | ⟨g, hg, haccess, -⟩
    · exact .inl ⟨w, rfl, h⟩
    · rw [hostEffect, hg] at h
      cases h
      exact .inr (.inr (haccess s))
  | readReg width offset => cases h; exact .inr (.inr ⟨rfl, .inl rfl⟩)
  | writeBuf width addr b => cases h; exact .inr (.inr (s.hostStore_access width addr b))
  | readBuf width addr => cases h; exact .inr (.inr (s.hostFetch_access width addr))
  | reset => cases h; exact .inr (.inl ⟨rfl, rfl⟩)

/-- The inversion lemma of a step: idle, or the oldest access performed (R216, R250). -/
theorem step_next {s t : State} (h : step s = .next t) :
    t = s ∨ ∃ op rest, s.pending = op :: rest ∧ hostEffect op { s with pending := rest } = .next t := by
  unfold step at h
  split at h
  · cases h; exact .inl rfl
  · next op rest hp =>
    unfold hostMove at h
    split at h
    · cases h
    · exact .inr ⟨op, rest, hp, h⟩

end Sys2Proof.Machine
end

section
/-! SUPPORT. What no host can observe (spec/10_state.md rules R34, R37): each operation of the model passes through
`State.visible`, and the digest engine reads no byte of `pend` at `plen` or above. -/

namespace Sys2Proof.Machine

/-! ### Contexts that differ in stale bytes of `pend` -/

/-! The three fields beside `pend`. A proof by `rfl` would compare the whole contexts first, and so unfold the
64-byte vector. -/

@[simp] theorem Context.meaningful_acc (x : Context) : x.meaningful.acc = x.acc := by
  simp only [Context.meaningful]
@[simp] theorem Context.meaningful_count (x : Context) : x.meaningful.count = x.count := by
  simp only [Context.meaningful]
@[simp] theorem Context.meaningful_plen (x : Context) : x.meaningful.plen = x.plen := by
  simp only [Context.meaningful]

theorem Context.meaningful_getElem_pend {x : Context} {k : Nat} (hk : k < 64) (hlt : k < x.plen.val) :
    x.meaningful.pend[k] = x.pend[k] := by
  simp only [Context.meaningful, Vector.getElem_ofFn, Fin.lt_def, if_pos hlt, Fin.getElem_fin]

/-- Two contexts have the same meaningful part if they differ in stale bytes of `pend` only (R31). -/
theorem Context.meaningful_eq {x y : Context} :
    x.meaningful = y.meaningful ↔ x.acc = y.acc ∧ x.count = y.count ∧ x.plen = y.plen ∧
      ∀ (k : Nat) (hk : k < 64), k < x.plen.val → x.pend[k] = y.pend[k] := by
  constructor
  · intro h
    have hacc := congrArg Context.acc h
    have hcount := congrArg Context.count h
    have hplen := congrArg Context.plen h
    simp only [Context.meaningful_acc, Context.meaningful_count, Context.meaningful_plen] at hacc hcount hplen
    refine ⟨hacc, hcount, hplen, fun k hk hlt => ?_⟩
    calc x.pend[k] = x.meaningful.pend[k] := (Context.meaningful_getElem_pend hk hlt).symm
      _ = y.meaningful.pend[k] := congrArg (fun c : Context => c.pend[k]) h
      _ = y.pend[k] := Context.meaningful_getElem_pend hk (hplen ▸ hlt)
  · rintro ⟨hacc, hcount, hplen, hpend⟩
    simp only [Context.meaningful, Context.mk.injEq, hacc, hcount, hplen, true_and, and_true]
    ext1 k hk
    simp only [Vector.getElem_ofFn, Fin.lt_def]
    split
    · next hlt => exact hpend k hk (hplen ▸ hlt)
    · rfl

/-- A byte more: only meaningful bytes of `pend` enter a block (R125). -/
theorem pushByte_meaningful {x y : Context} (h : x.meaningful = y.meaningful) (b : Byte) :
    (pushByte x b).meaningful = (pushByte y b).meaningful := by
  obtain ⟨hacc, hcount, hplen, hpend⟩ := Context.meaningful_eq.mp h
  have hset : ∀ (k : Nat) (hk : k < 64), k < x.plen.val + 1 →
      (x.pend.set x.plen b)[k] = (y.pend.set y.plen b)[k] := by
    intro k hk hlt
    simp only [Vector.getElem_set, hplen]
    split
    · rfl
    · exact hpend k hk (by rw [hplen] at hlt ⊢; omega)
  unfold pushByte
  by_cases hfull : x.plen.val + 1 = 64
  · have hblock : x.pend.set x.plen b = y.pend.set y.plen b := by
      ext1 k hk
      exact hset k hk (by omega)
    simp only [if_pos hfull, if_pos (hplen ▸ hfull), hblock, hacc, hcount]
  · simp only [if_neg hfull, if_neg (hplen ▸ hfull)]
    refine Context.meaningful_eq.mpr ⟨hacc, hcount, by simp only [hplen], fun k hk hlt => hset k hk ?_⟩
    have := x.plen.isLt
    simp only [Fin.val_add, Fin.val_one] at hlt
    omega

theorem md5UpdateRaw_meaningful {x y : Context} (h : x.meaningful = y.meaningful) (m : List Byte) :
    (md5UpdateRaw x m).meaningful = (md5UpdateRaw y m).meaningful := by
  induction m generalizing x y with
  | nil => exact h
  | cons b m ih => exact ih (pushByte_meaningful h b)

theorem md5Update_meaningful {x y : Context} (h : x.meaningful = y.meaningful) (m : List Byte) :
    (md5Update x m).meaningful = (md5Update y m).meaningful := by
  obtain ⟨hacc, hcount, hplen, hpend⟩ := Context.meaningful_eq.mp (md5UpdateRaw_meaningful h m)
  simp only [Context.meaningful_eq, md5Update_acc, md5Update_count, md5Update_plen, md5Update_pend]
  rw [md5UpdateRaw_count, md5UpdateRaw_count] at hcount
  exact ⟨hacc, by rw [hcount], hplen, hpend⟩

/-- A digest depends on the meaningful part of a context only (R31, R128). -/
theorem md5Digest_meaningful {x y : Context} (h : x.meaningful = y.meaningful) : md5Digest x = md5Digest y := by
  obtain ⟨-, hcount, hplen, -⟩ := Context.meaningful_eq.mp h
  obtain ⟨hacc, -⟩ := Context.meaningful_eq.mp (md5UpdateRaw_meaningful h (pad x.plen.val x.count))
  rw [hplen, hcount] at hacc
  simp only [md5Digest, md5Padded, hplen, hcount, hacc]

/-! ### Slots -/

@[simp] theorem Slot.visible_life (x : Slot) : x.visible.life = x.life := by
  unfold Slot.visible
  split <;> rfl

theorem Slot.visible_of_live {x : Slot} (h : x.life.live = true) : x.visible = { x with ctx := x.ctx.meaningful } :=
  if_pos h

@[simp] theorem Slot.reset_visible : Slot.reset.visible = Slot.reset := rfl

/-- Two streams that look alike have contexts with the same meaningful part. -/
theorem Slot.meaningful_of_visible {x y : Slot} (h : x.visible = y.visible) (hx : x.life.live = true) :
    x.ctx.meaningful = y.ctx.meaningful := by
  have hl : x.life = y.life := by simpa using congrArg Slot.life h
  rw [Slot.visible_of_live hx, Slot.visible_of_live (hl ▸ hx)] at h
  exact (congrArg Slot.ctx h :)

/-! ### `State.visible` and the operations on a state -/

theorem State.visible_slot (s : State) (c : Nat) : s.visible.slot c = (s.slot c).visible := by
  simp only [State.slot, State.visible, List.getD_eq_getElem?_getD, List.getElem?_map]
  cases s.ctx[c]? <;> rfl

@[simp] theorem State.visible_setSlot (s : State) (c : Nat) (x : Slot) :
    (s.setSlot c x).visible = s.visible.setSlot c x.visible := by
  simp only [State.visible, State.setSlot, List.map_set]

@[simp] theorem State.visible_setResult (s : State) (v : Word) : (s.setResult v).visible = s.visible.setResult v := rfl
@[simp] theorem State.visible_store (s : State) (a : Nat) (bs : List Byte) :
    (s.store a bs).visible = s.visible.store a bs := rfl
@[simp] theorem State.visible_setBusy (s : State) (b : Bool) : (s.setBusy b).visible = s.visible.setBusy b := rfl
@[simp] theorem State.visible_raiseError (s : State) (e : ErrorCode) :
    (s.raiseError e).visible = s.visible.raiseError e := rfl
@[simp] theorem State.visible_reply (s : State) (r : Reply) : (s.reply r).visible = s.visible.reply r := rfl
@[simp] theorem State.visible_softReset (s : State) : s.softReset.visible = s.visible.softReset := by
  simp [State.visible, State.softReset]
@[simp] theorem State.visible_hardReset (s : State) : s.hardReset.visible = s.visible.hardReset := by
  simp [State.visible, State.hardReset, State.resetWith]

@[simp] theorem State.visible_encodeApr1 (s : State) (pw sp : List Byte) :
    ((s.runApr1 pw sp).copyApr1.scrubApr1).visible = (s.visible.runApr1 pw sp).copyApr1.scrubApr1 := by
  rw [State.encodeApr1_eq, State.encodeApr1_eq]
  rfl

/-- Of a digest, a host sees the bytes in BUF and a FINALIZED slot; what SCRUB_MODE leaves is hidden (R37). -/
@[simp] theorem State.visible_finishDigest (s : State) (c : Nat) (x : Context) :
    (s.finishDigest c x).visible =
      ((s.visible.store s.visible.a4 (md5Digest x)).setSlot c ⟨Context.zero, .finalized⟩).setResult 16 := by
  unfold State.finishDigest
  simp only [State.visible_setResult, State.visible_setSlot, State.visible_store]
  rfl

/-- The check reads no hidden state. -/
theorem State.check_visible (i : Instr) (s : State) : check i s.visible = check i s := by
  cases i <;> simp only [check, State.visible_slot, Slot.visible_life] <;> rfl

/-! ### States that look alike answer alike -/

theorem State.check_eq_of_visible {s t : State} (h : s.visible = t.visible) (i : Instr) : check i s = check i t := by
  rw [← State.check_visible, h, State.check_visible]

theorem State.slot_eq_of_visible {s t : State} (h : s.visible = t.visible) (c : Nat) :
    (s.slot c).visible = (t.slot c).visible := by
  rw [← State.visible_slot, h, State.visible_slot]

theorem afterCheck_visible {s t : State} (h : s.visible = t.visible) {e : Except Fault ErrorCode} {x y : Result}
    (hxy : e = .ok .none → onNext State.visible x = onNext State.visible y) :
    onNext State.visible (afterCheck e s x) = onNext State.visible (afterCheck e t y) := by
  rw [onNext_afterCheck (fun _ => rfl), onNext_afterCheck (fun _ => rfl), h, afterCheck_congr hxy]

/-- Every command answers alike in states that look alike (R34, R37). -/
theorem exec_visible {s t : State} (h : s.visible = t.visible) (i : Instr) :
    onNext State.visible (exec i s) = onNext State.visible (exec i t) := by
  have hcheck := State.check_eq_of_visible h i
  have hslot := State.slot_eq_of_visible h
  have hbuf : s.buf = t.buf := (congrArg State.buf h :)
  have ha0 : s.a0 = t.a0 := (congrArg State.a0 h :)
  have ha1 : s.a1 = t.a1 := (congrArg State.a1 h :)
  have ha2 : s.a2 = t.a2 := (congrArg State.a2 h :)
  have ha3 : s.a3 = t.a3 := (congrArg State.a3 h :)
  cases i with
  | md5Init c =>
    simp only [exec, execMd5Init, ← hcheck]
    refine afterCheck_visible h fun _ => ?_
    simp only [onNext_next, State.visible_setResult, State.visible_setSlot, h]
  | md5Update c =>
    simp only [exec, execMd5Update, ← hcheck]
    refine afterCheck_visible h fun hok => ?_
    obtain ⟨-, -, hlive⟩ := check_eq_none.mp hok
    simp only [onNext_withBytes, hbuf, ha0, ha1, onNext_next, State.visible_setResult, State.visible_setSlot, h]
    refine congrArg _ (funext fun m => ?_)
    rw [Slot.visible_of_live rfl, Slot.visible_of_live rfl]
    simp only [md5Update_meaningful (Slot.meaningful_of_visible (hslot c) hlive)]
  | md5Final c =>
    simp only [exec, execMd5Final, ← hcheck]
    refine afterCheck_visible h fun hok => ?_
    obtain ⟨-, -, hlive⟩ := check_eq_none.mp hok
    simp only [onNext_next, State.visible_finishDigest, h,
      md5Digest_meaningful (Slot.meaningful_of_visible (hslot c) hlive)]
  | md5Digest c =>
    simp only [exec, execMd5Digest, ← hcheck]
    refine afterCheck_visible h fun _ => ?_
    simp only [onNext_withBytes, onNext_next, hbuf, ha0, ha1, State.visible_finishDigest, h]
  | to64 =>
    have ha4 : s.a4 = t.a4 := (congrArg State.a4 h :)
    have harg1 : s.arg1 = t.arg1 := (congrArg State.arg1 h :)
    simp only [exec, execTo64, ← hcheck]
    refine afterCheck_visible h fun _ => ?_
    simp only [onNext_next, State.visible_setResult, State.visible_store, h, ha0, ha1, ha4, harg1]
  | apr1Encode =>
    simp only [exec, execApr1Encode, ← hcheck]
    refine afterCheck_visible h fun _ => ?_
    simp only [onNext_withBytes, onNext_next, hbuf, ha0, ha1, ha2, ha3, State.visible_encodeApr1, h]
  | sreset =>
    simp only [exec, execSreset, ← hcheck]
    refine afterCheck_visible h fun _ => ?_
    simp only [onNext_next, State.visible_softReset, h]

theorem onNext_visible_complete (r : Result) :
    onNext State.visible (complete r) = complete (onNext State.visible r) := by
  cases r <;> rfl

theorem runDecoded_visible {s t : State} (h : s.visible = t.visible) (w : Word) :
    onNext State.visible (runDecoded w s) = onNext State.visible (runDecoded w t) := by
  unfold runDecoded
  cases decode w with
  | error e => simp only [onNext_next, State.visible_raiseError, h]
  | ok i => exact exec_visible h i

theorem State.visible_withCmd {s t : State} (h : s.visible = t.visible) (w : Word) :
    { s with cmd := w }.visible = { t with cmd := w }.visible :=
  congrArg (fun u : State => { u with cmd := w }) h

theorem issue_visible {s t : State} (h : s.visible = t.visible) (w : Word) :
    onNext State.visible (issue w s) = onNext State.visible (issue w t) := by
  have hstatus : s.status = t.status := (congrArg State.status h :)
  have hcmd := State.visible_withCmd h w
  by_cases hgate : s.status.err = true ∧ w ≠ sresetWord
  · rw [issue_sticky hgate.1 hgate.2, issue_sticky (hstatus ▸ hgate.1) hgate.2]
    exact congrArg Host.Outcome.next hcmd
  · have hrun : s.status.err = false ∨ w = sresetWord :=
      (Decidable.not_and_iff_not_or_not.mp hgate).imp Bool.of_not_eq_true Decidable.of_not_not
    rw [issue_run hrun, issue_run (hstatus ▸ hrun), onNext_visible_complete, onNext_visible_complete,
      runDecoded_visible]
    exact congrArg (State.setBusy · true) hcmd

theorem writeReg_visible {s t : State} (h : s.visible = t.visible) (width offset : Nat) (w : Word) :
    onNext State.visible (writeReg width offset w s) = onNext State.visible (writeReg width offset w t) := by
  rcases writeReg_cases width offset w with ⟨rfl, rfl⟩ | ⟨g, hg, -, hvisible⟩
  · exact issue_visible h w
  · simp only [hg, onNext_next, hvisible, h]

theorem State.visible_hostStore (s : State) (width addr : Nat) (b : Byte) :
    (s.hostStore width addr b).visible = s.visible.hostStore width addr b :=
  apply_ite State.visible _ _ _

theorem State.visible_hostFetch (s : State) (width addr : Nat) :
    (s.hostFetch width addr).visible = s.visible.hostFetch width addr := by
  unfold State.hostFetch
  rw [apply_ite State.visible]
  refine ite_congr rfl (fun _ => ?_) (fun _ => rfl)
  rw [show s.visible.buf = s.buf from rfl]
  cases s.buf.read addr <;> rfl

theorem hostEffect_visible {s t : State} (h : s.visible = t.visible) (op : HostOp) :
    onNext State.visible (hostEffect op s) = onNext State.visible (hostEffect op t) := by
  cases op with
  | writeReg width offset w => exact writeReg_visible h width offset w
  | readReg width offset =>
    have hread : s.readReg width offset = t.readReg width offset := (congrArg (State.readReg · width offset) h :)
    simp only [hostEffect, onNext_next, State.visible_reply, hread, h]
  | writeBuf width addr b => simp only [hostEffect, onNext_next, State.visible_hostStore, h]
  | readBuf width addr => simp only [hostEffect, onNext_next, State.visible_hostFetch, h]
  | reset => simp only [hostEffect, onNext_next, State.visible_hardReset, h]

theorem hostMove_visible {s t : State} (h : s.visible = t.visible) (op : HostOp) :
    onNext State.visible (hostMove op s) = onNext State.visible (hostMove op t) := by
  have hstatus : s.status = t.status := (congrArg State.status h :)
  unfold hostMove
  rw [hstatus]
  split
  · rfl
  · exact hostEffect_visible h op

/-- A step answers alike in states that look alike (R34, R37, R61, R230). -/
theorem step_visible {s t : State} (h : s.visible = t.visible) :
    onNext State.visible (step s) = onNext State.visible (step t) := by
  have hpending : s.pending = t.pending := (congrArg State.pending h :)
  cases hp : s.pending with
  | nil =>
    rw [step_nil hp, step_nil (hpending ▸ hp)]
    exact congrArg Host.Outcome.next h
  | cons op rest =>
    rw [step_cons hp, step_cons (hpending ▸ hp)]
    exact hostMove_visible (congrArg (fun u : State => { u with pending := rest }) h) op

/-- What a run answers once its first step has answered `r`. -/
def runAfter (n : Nat) : Result → Result
  | .next s => core.run n s
  | .fault f => .fault f
  | .refused r => .refused r

theorem run_succ (n : Nat) (s : State) : core.run (n + 1) s = runAfter n (step s) := by
  simp only [Host.Core.run, core]
  cases step s <;> rfl

/-- Outcomes that look alike are continued alike, if runs of `n` steps answer alike. -/
theorem runAfter_visible {n : Nat}
    (hn : ∀ s t : State, s.visible = t.visible →
      onNext State.visible (core.run n s) = onNext State.visible (core.run n t))
    {r r' : Result} (h : onNext State.visible r = onNext State.visible r') :
    onNext State.visible (runAfter n r) = onNext State.visible (runAfter n r') := by
  cases r with
  | next s =>
    cases r' with
    | next t => exact hn s t (Host.Outcome.next.inj h)
    | fault f => cases h
    | refused x => cases h
  | fault f => cases r' <;> cases h; rfl
  | refused x => cases r' <;> cases h; rfl

/-- Settles O21, by induction on the number of steps: each step answers alike (`step_visible`), so the next states
look alike again. -/
theorem hiddenStateIsUnobservable : Obligations.HiddenStateIsUnobservable := by
  intro s t h n
  induction n generalizing s t with
  | zero => exact congrArg Host.Outcome.next h
  | succ n ih =>
    rw [run_succ, run_succ]
    exact runAfter_visible ih (step_visible h)

end Sys2Proof.Machine
end

section
/-! SUPPORT. Frames of the commands (spec/10_state.md rules R22, R25, R34, R35): which fields an effect can change,
and which slots it reads and writes. -/

namespace Sys2Proof.Machine

/-! ### Registers -/

/-- A command's effect changes no field but STATUS, RESULT, the slots, BUF and the working state of APR1_ENCODE. -/
def SameRegisters (s t : State) : Prop :=
  ∃ st r ctx buf w, t = { s with status := st, result := r, ctx := ctx, buf := buf, apr1 := w }

/-- Only SRESET's effect writes STATUS (R190). -/
theorem effect_frame {i : Instr} {s t : State} (h : Effect i s t) :
    SameRegisters s t ∧ (i = .sreset ∨ t.status = s.status) := by
  cases i with
  | md5Init c => cases h; exact ⟨⟨_, _, _, _, _, rfl⟩, .inr rfl⟩
  | md5Update c => obtain ⟨m, -, -, rfl⟩ := h; exact ⟨⟨_, _, _, _, _, rfl⟩, .inr rfl⟩
  | md5Final c =>
    cases h
    rw [State.finishDigest_eq]
    exact ⟨⟨_, _, _, _, _, rfl⟩, .inr rfl⟩
  | md5Digest c =>
    obtain ⟨m, -, -, rfl⟩ := h
    rw [State.finishDigest_eq]
    exact ⟨⟨_, _, _, _, _, rfl⟩, .inr rfl⟩
  | to64 => cases h; exact ⟨⟨_, _, _, _, _, rfl⟩, .inr rfl⟩
  | apr1Encode =>
    obtain ⟨pw, sp, -, -, rfl⟩ := h
    rw [State.encodeApr1_eq]
    exact ⟨⟨_, _, _, _, _, rfl⟩, .inr rfl⟩
  | sreset => cases h; exact ⟨⟨_, _, _, _, _, rfl⟩, .inl rfl⟩

theorem exec_sameRegisters {i : Instr} {s t : State} (h : exec i s = .next t) : SameRegisters s t := by
  rcases exec_next.mp h with ⟨e, -, -, rfl⟩ | ⟨-, he⟩
  · exact ⟨_, _, _, _, _, rfl⟩
  · exact (effect_frame he).1

/-- Settles O17: an error writes STATUS alone (`raiseError`), and an effect keeps the registers (`effect_frame`). -/
theorem commandsKeepRegisters : Obligations.CommandsKeepRegisters := by
  intro i s t h
  have hstatus : i = .sreset ∨ t.status = s.status ∨ t = { s with status := t.status } := by
    rcases exec_next.mp h with ⟨e, -, -, rfl⟩ | ⟨-, he⟩
    · exact .inr (.inr rfl)
    · exact (effect_frame he).2.imp_right .inl
  obtain ⟨st, r, ctx, buf, w, rfl⟩ := exec_sameRegisters h
  exact ⟨rfl, rfl, rfl, rfl, rfl, rfl, rfl, rfl, rfl, rfl, rfl, hstatus⟩

/-! ### Slots -/

@[simp] theorem State.finishDigest_ctx (s : State) (c : Nat) (x : Context) : (s.finishDigest c x).ctx =
    s.ctx.set c ⟨scrub s.params.scrubMode (md5Padded x), .finalized⟩ := by
  rw [State.finishDigest_eq]

/-- The slots after an effect: SRESET aside, only the named slot is replaced (R34, R35). -/
theorem effect_ctx {i : Instr} {s t : State} (hi : i ≠ .sreset) (h : Effect i s t) :
    t.ctx = s.ctx ∨ ∃ c x, i.slot? = some c ∧ t.ctx = s.ctx.set c x := by
  cases i with
  | md5Init c => cases h; exact .inr ⟨c, _, rfl, rfl⟩
  | md5Update c => obtain ⟨m, -, -, rfl⟩ := h; exact .inr ⟨c, _, rfl, rfl⟩
  | md5Final c => cases h; exact .inr ⟨c, _, rfl, s.finishDigest_ctx c _⟩
  | md5Digest c => obtain ⟨m, -, -, rfl⟩ := h; exact .inr ⟨c, _, rfl, s.finishDigest_ctx c _⟩
  | to64 => cases h; exact .inl rfl
  | apr1Encode =>
    obtain ⟨pw, sp, -, -, rfl⟩ := h
    rw [State.encodeApr1_eq]
    exact .inl rfl
  | sreset => exact absurd rfl hi

/-- Settles O19: a raised error keeps every slot, and an effect replaces the named slot at most (`effect_ctx`). -/
theorem commandsKeepOtherSlots : Obligations.CommandsKeepOtherSlots := by
  intro i s t d hi h hd
  rcases exec_next.mp h with ⟨e, -, -, rfl⟩ | ⟨-, he⟩
  · rfl
  · rcases effect_ctx hi he with hctx | ⟨c, x, hc, hctx⟩
    · rw [hctx]
    · rw [hctx, List.getElem?_set_ne fun hcd : c = d => hd (hcd ▸ hc)]

/-! ### The slots a command does not name -/

/-- A state with the slots `ctx'`, except that the slot `i` names stays. -/
def withOtherSlots (i : Instr) (ctx' : List Slot) (t : State) : State :=
  { t with ctx := match i.slot? with
    | some c => ctx'.set c (t.slot c)
    | none   => ctx' }

/-- Slots that agree read alike. -/
theorem State.slot_eq_of_getElem? {s t : State} {c : Nat} (h : t.ctx[c]? = s.ctx[c]?) : t.slot c = s.slot c := by
  simp only [State.slot, List.getD_eq_getElem?_getD, h]

/-- Writing back the slot that is there changes nothing. -/
theorem set_slot_eq_self {s : State} {ctx' : List Slot} {c : Nat} (h : ctx'[c]? = s.ctx[c]?) :
    ctx'.set c (s.slot c) = ctx' := by
  rw [← State.slot_eq_of_getElem? (t := { s with ctx := ctx' }) h]
  refine List.ext_getElem? fun d => ?_
  rw [List.getElem?_set]
  split
  · next hcd =>
    subst hcd
    simp only [State.slot, List.getD_eq_getElem?_getD]
    cases hx : ctx'[c]? with
    | none => simpa using hx
    | some x => simp [(List.getElem?_eq_some_iff.mp hx).1]
  · rfl

/-- A slot written into one list reads back into another list of the same length. -/
theorem set_slot_setSlot {s : State} {ctx' : List Slot} (hlen : ctx'.length = s.ctx.length) (c : Nat) (x : Slot) :
    ctx'.set c ((s.setSlot c x).slot c) = ctx'.set c x := by
  by_cases hc : c < s.ctx.length
  · rw [State.slot_setSlot_self s x hc]
  · rw [List.set_eq_of_length_le (by omega), List.set_eq_of_length_le (by omega)]

theorem withOtherSlots_eq {i : Instr} {s : State} {ctx' : List Slot}
    (h : ∀ c, i.slot? = some c → ctx'[c]? = s.ctx[c]?) : withOtherSlots i ctx' s = { s with ctx := ctx' } := by
  unfold withOtherSlots
  cases hi : i.slot? with
  | none => rfl
  | some c => simp only [set_slot_eq_self (h c hi)]

/-- The named slot is written, and the other slots are as given. -/
theorem withOtherSlots_setSlot {i : Instr} {s : State} {ctx' : List Slot} {c : Nat} (hc : i.slot? = some c)
    (hlen : ctx'.length = s.ctx.length) (x : Slot) :
    withOtherSlots i ctx' (s.setSlot c x) = { s with ctx := ctx' }.setSlot c x := by
  simp only [withOtherSlots, hc, set_slot_setSlot hlen]
  rfl

theorem withOtherSlots_finishDigest {i : Instr} {s : State} {ctx' : List Slot} {c : Nat} (hc : i.slot? = some c)
    (hlen : ctx'.length = s.ctx.length) (x : Context) :
    withOtherSlots i ctx' (s.finishDigest c x) = { s with ctx := ctx' }.finishDigest c x := by
  simp only [State.finishDigest]
  generalize md5Final s.params.scrubMode x = r
  exact congrArg (State.setResult · _) (withOtherSlots_setSlot (s := s.store s.a4 r.1) hc hlen ⟨r.2, .finalized⟩)

theorem check_withCtx {i : Instr} {s : State} {ctx' : List Slot}
    (h : ∀ c, i.slot? = some c → ctx'[c]? = s.ctx[c]?) : check i { s with ctx := ctx' } = check i s := by
  have hslot : ∀ c, i.slot? = some c → ({ s with ctx := ctx' } : State).slot c = s.slot c :=
    fun c hc => State.slot_eq_of_getElem? (h c hc)
  cases i with
  | md5Update c => simp only [check, hslot c rfl]; rfl
  | md5Final c => simp only [check, hslot c rfl]; rfl
  | _ => rfl

/-- A command whose effect, with other contents in the slots it does not name, is its effect followed by those
contents, answers the same. -/
theorem afterCheck_withOtherSlots {i : Instr} {s : State} {ctx' : List Slot}
    (h : ∀ c, i.slot? = some c → ctx'[c]? = s.ctx[c]?) {x y : Result} (hxy : x = onNext (withOtherSlots i ctx') y) :
    afterCheck (check i { s with ctx := ctx' }) { s with ctx := ctx' } x =
      onNext (withOtherSlots i ctx') (afterCheck (check i s) s y) := by
  have hraise : ∀ e, withOtherSlots i ctx' (s.raiseError e) = (withOtherSlots i ctx' s).raiseError e := fun _ => rfl
  rw [onNext_afterCheck hraise, withOtherSlots_eq h, check_withCtx h, hxy]

/-- Settles O20: the check reads the named slot only (`check_withCtx`), and each effect commutes with replacing the
other slots. -/
theorem commandsIgnoreOtherSlots : Obligations.CommandsIgnoreOtherSlots := by
  intro i s ctx' hi hlen hagree
  show exec i _ = onNext (withOtherSlots i ctx') _
  cases i with
  | md5Init c =>
    refine afterCheck_withOtherSlots hagree ?_
    have hset := withOtherSlots_setSlot (i := .md5Init c) rfl hlen ⟨Machine.md5Init, .initialized⟩
    exact congrArg (fun u : State => Host.Outcome.next (u.setResult 0)) hset.symm
  | md5Update c =>
    refine afterCheck_withOtherSlots hagree ?_
    rw [onNext_withBytes, State.slot_eq_of_getElem? (hagree c rfl)]
    refine congrArg (withBytes _) (funext fun m => ?_)
    have hset := withOtherSlots_setSlot (i := .md5Update c) rfl hlen
      ⟨Machine.md5Update (s.slot c).ctx m, .accumulating⟩
    exact congrArg (fun u : State => Host.Outcome.next (u.setResult 0)) hset.symm
  | md5Final c =>
    refine afterCheck_withOtherSlots hagree ?_
    rw [onNext_next, withOtherSlots_finishDigest rfl hlen, State.slot_eq_of_getElem? (hagree c rfl)]
  | md5Digest c =>
    refine afterCheck_withOtherSlots hagree ?_
    simp only [onNext_withBytes, onNext_next]
    refine congrArg (withBytes _) (funext fun m => ?_)
    rw [withOtherSlots_finishDigest rfl hlen]
  | to64 => exact afterCheck_withOtherSlots hagree rfl
  | apr1Encode =>
    refine afterCheck_withOtherSlots hagree ?_
    simp only [onNext_withBytes, onNext_next, State.encodeApr1_eq]
    rfl
  | sreset => exact absurd rfl hi

end Sys2Proof.Machine
end

section
/-! SUPPORT. The invariant of spec/10_state.md (R26, R28, R31, R33, R37, R50): each update of the state keeps it, so
each command, each access of the host and each step does. -/

namespace Sys2Proof.Machine

/-! ### Slots -/

theorem pushByte_plen (x : Context) (b : Byte) : (pushByte x b).plen.val = (x.plen.val + 1) % 64 := by
  unfold pushByte
  split
  · next h => rw [h]; rfl
  · simp only [Fin.val_add, Fin.val_one]

theorem md5UpdateRaw_plen (x : Context) (m : List Byte) :
    (md5UpdateRaw x m).plen.val = (x.plen.val + m.length) % 64 := by
  induction m generalizing x with
  | nil => exact (Nat.mod_eq_of_lt x.plen.isLt).symm
  | cons b m ih =>
    rw [show md5UpdateRaw x (b :: m) = md5UpdateRaw (pushByte x b) m from rfl, ih, pushByte_plen, List.length_cons]
    omega

/-- The counter and the pending length agree modulo a block of 512 bits (R33). -/
def Context.Counts (x : Context) : Prop := x.count.toNat % 512 = 8 * x.plen.val

/-- The counter wraps at 2^64, a multiple of 512, so an update keeps the agreement (R33, R110). -/
theorem md5Update_counts {x : Context} (h : x.Counts) (m : List Byte) : (md5Update x m).Counts := by
  unfold Context.Counts at h ⊢
  rw [md5Update_count, md5Update_plen, md5UpdateRaw_plen, BitVec.toNat_add, BitVec.toNat_ofNat]
  omega

/-- A stream's counter and pending length agree, in both of its lifecycle states (R33). -/
theorem Slot.Inv.counts {mode : Config.ScrubMode} {x : Slot} (h : x.Inv mode) (hl : x.life.live = true) :
    x.ctx.Counts := by
  unfold Slot.Inv at h
  cases hx : x.life <;> simp only [hx] at h hl
  case initialized => rw [h]; rfl
  case accumulating => exact h
  all_goals cases hl

theorem Slot.reset_inv (mode : Config.ScrubMode) : Slot.reset.Inv mode := rfl

theorem Slot.scrub_inv (mode : Config.ScrubMode) (x : Context) : Slot.Inv mode ⟨scrub mode x, .finalized⟩ := by
  intro hmode
  rw [hmode]
  rfl

theorem forall_mem_replicate_reset (n : Nat) (mode : Config.ScrubMode) :
    ∀ x ∈ List.replicate n Slot.reset, x.Inv mode := by
  intro x hx
  rw [List.eq_of_mem_replicate hx]
  exact Slot.reset_inv mode

/-! ### Updates of the state -/

namespace State.Inv

variable {s : State}

theorem slot (h : s.Inv) (c : Nat) : (s.slot c).Inv s.params.scrubMode := by
  by_cases hc : c < s.ctx.length
  · have hx : s.slot c = s.ctx[c] := by simp [State.slot, hc]
    exact hx ▸ h.slots _ (List.getElem_mem hc)
  · have hx : s.slot c = Slot.reset := by simp [State.slot, Nat.not_lt.mp hc]
    exact hx ▸ Slot.reset_inv _

theorem setSlot (h : s.Inv) (c : Nat) {x : Slot} (hx : x.Inv s.params.scrubMode) : (s.setSlot c x).Inv :=
  { h with
    slotCount := by rw [State.setSlot_ctx, List.length_set]; exact h.slotCount
    slots := fun y hy => (List.mem_or_eq_of_mem_set hy).elim (h.slots y) fun hyx => hyx ▸ hx }

theorem setResult (h : s.Inv) (v : Word) : (s.setResult v).Inv := { h with }

theorem store (h : s.Inv) {a : Nat} {bs : List Byte} (hbs : a + bs.length ≤ s.params.bufBytes) : (s.store a bs).Inv :=
  { h with
    bufWf := Memory.writeBytes_wf a bs h.bufWf
    bufBound := Memory.writeBytes_bound a bs h.bufBound hbs }

theorem finishDigest (h : s.Inv) (ha : s.a4 + 16 ≤ s.params.bufBytes) (c : Nat) (x : Context) :
    (s.finishDigest c x).Inv :=
  ((h.store ha).setSlot c (Slot.scrub_inv s.params.scrubMode (md5Padded x))).setResult _

theorem raiseError (h : s.Inv) {e : ErrorCode} (he : e ≠ .none) : (s.raiseError e).Inv :=
  { h with
    idle := by simpa using h.idle
    errcode := by
      by_cases hs : s.status.err = true
      · rw [State.raiseError, Status.record_of_err _ _ hs]
        exact h.errcode
      · rw [State.raiseError, Status.record_of_clear _ _ (by simpa using hs)]
        simp [he] }

theorem softReset (h : s.Inv) : s.softReset.Inv :=
  { h with
    slotCount := List.length_replicate
    slots := forall_mem_replicate_reset _ _
    idle := rfl
    errcode := iff_of_true rfl rfl
    apr1 := rfl }

theorem plainAccess {t : State} (h : s.Inv) (ht : PlainAccess s t) : t.Inv := by
  obtain ⟨heq, hbuf⟩ := ht
  have hwf : t.buf.Wf ∧ ∀ cell ∈ t.buf, cell.1 < s.params.bufBytes := by
    rcases hbuf with hbuf | ⟨a, b, ha, hbuf⟩
    · exact hbuf ▸ ⟨h.bufWf, h.bufBound⟩
    · exact hbuf ▸ ⟨Memory.write_wf a b h.bufWf, Memory.writeBytes_bound a [b] h.bufBound ha⟩
  rw [heq]
  exact { h with bufWf := hwf.1, bufBound := hwf.2 }

end State.Inv

/-- The state after a reset with legal parameters satisfies the invariant (R38, R230). -/
theorem State.resetWith_inv {p : Config.Params} (hp : p.Legal) : (State.resetWith p).Inv where
  params := hp
  slotCount := List.length_replicate
  slots := forall_mem_replicate_reset _ _
  bufWf := List.Pairwise.nil
  bufBound := fun _ h => nomatch h
  idle := rfl
  errcode := iff_of_true rfl rfl
  apr1 := rfl

theorem State.Inv.hardReset {s : State} (h : s.Inv) : s.hardReset.Inv := { State.resetWith_inv h.params with }

/-! ### Commands and steps -/

/-- The copy of the encoded string takes the range that the check of APR1_ENCODE tests (R176, R202). -/
theorem copyBytes_apr1String_length (cap : Nat) (literal : Bool) (pw sp : List Byte) :
    (copyBytes cap (apr1String literal pw sp)).length = copyWidth cap (29 + (saltOf sp).length) := by
  have hlen : (apr1String literal pw sp).length = 29 + (saltOf sp).length := by
    rw [apr1String_eq]
    simp only [List.length_append, encodeFinal_length, magic, List.length_cons, List.length_nil]
    omega
  rw [copyBytes_length, hlen]

/-- BUSY and the recorded error are written independently (R28, R29). -/
theorem State.setBusy_raiseError (s : State) (e : ErrorCode) (b : Bool) :
    (s.raiseError e).setBusy b = (s.setBusy b).raiseError e := by
  cases hs : s.status.err <;> simp [State.setBusy, State.raiseError, Status.record, Status.withBusy, hs]

theorem State.setBusy_finishDigest (s : State) (c : Nat) (x : Context) (b : Bool) :
    (s.finishDigest c x).setBusy b = (s.setBusy b).finishDigest c x := by
  rw [State.finishDigest_eq, State.finishDigest_eq]
  simp only [State.setBusy]
  rfl

/-- An effect keeps the invariant, BUSY aside, which is 1 while a command executes (R28). -/
theorem effect_inv {i : Instr} {s t : State} (hs : (s.setBusy false).Inv) (hp : Passes i s) (he : Effect i s t) :
    (t.setBusy false).Inv := by
  cases i with
  | md5Init c =>
    cases he
    exact (hs.setSlot c (x := ⟨Machine.md5Init, .initialized⟩) rfl).setResult 0
  | md5Update c =>
    obtain ⟨m, -, -, rfl⟩ := he
    obtain ⟨-, -, hlive⟩ := hp
    have hx : Slot.Inv s.params.scrubMode ⟨Machine.md5Update (s.slot c).ctx m, .accumulating⟩ :=
      md5Update_counts ((hs.slot c).counts hlive) m
    exact (hs.setSlot c hx).setResult 0
  | md5Final c =>
    cases he
    obtain ⟨-, ha4, -⟩ := hp
    rw [State.setBusy_finishDigest]
    exact hs.finishDigest ha4 c _
  | md5Digest c =>
    obtain ⟨m, -, -, rfl⟩ := he
    obtain ⟨-, -, ha4⟩ := hp
    rw [State.setBusy_finishDigest]
    exact hs.finishDigest ha4 c _
  | to64 =>
    cases he
    obtain ⟨-, ha4⟩ := hp
    exact (hs.store (by rw [to64_length]; exact ha4)).setResult _
  | apr1Encode =>
    obtain ⟨pw, sp, -, hsp, rfl⟩ := he
    obtain ⟨-, -, sp', hsp', hout⟩ := hp
    have hfit : s.a4 + (copyBytes s.a5 (apr1String s.params.mixLiteral pw sp)).length ≤ s.params.bufBytes := by
      rw [copyBytes_apr1String_length, hsp.unique hsp']
      exact hout
    rw [State.encodeApr1_eq]
    exact { hs.store hfit with apr1 := rfl }
  | sreset =>
    cases he
    exact hs.softReset

theorem exec_inv {i : Instr} {s t : State} (hs : (s.setBusy false).Inv) (h : exec i s = .next t) :
    (t.setBusy false).Inv := by
  rcases exec_cases h with ⟨e, hne, -, rfl⟩ | ⟨hp, he⟩
  · rw [State.setBusy_raiseError]
    exact hs.raiseError hne
  · exact effect_inv hs hp he

theorem issue_inv {w : Word} {s t : State} (hs : s.Inv) (h : issue w s = .next t) : t.Inv := by
  have hissued : (({ s with cmd := w }.setBusy true).setBusy false).Inv := { hs with idle := rfl }
  rcases issue_next h with ⟨-, -, rfl⟩ | ⟨e, -, rfl⟩ | ⟨i, u, -, hu, rfl⟩
  · exact { hs with }
  · rw [State.setBusy_raiseError]
    exact hissued.raiseError (by decide)
  · exact exec_inv hissued hu

theorem issue_params {w : Word} {s t : State} (h : issue w s = .next t) : t.params = s.params := by
  rcases issue_next h with ⟨-, -, rfl⟩ | ⟨e, -, rfl⟩ | ⟨i, u, -, hu, rfl⟩
  · rfl
  · rfl
  · obtain ⟨st, r, ctx, buf, x, rfl⟩ := exec_sameRegisters hu
    rfl

theorem hostEffect_inv {op : HostOp} {s t : State} (hs : s.Inv) (h : hostEffect op s = .next t) :
    t.Inv ∧ t.params = s.params := by
  rcases hostEffect_next h with ⟨w, -, hi⟩ | ⟨-, rfl⟩ | hp
  · exact ⟨issue_inv hs hi, issue_params hi⟩
  · exact ⟨hs.hardReset, rfl⟩
  · exact ⟨hs.plainAccess hp, by rw [hp.1]⟩

/-- Settles O23: an idle step changes nothing, and every access of the host keeps the invariant (`hostEffect_inv`). -/
theorem stepKeepsInvariant : Obligations.StepKeepsInvariant := by
  intro s t hs h
  rcases step_next h with rfl | ⟨op, rest, -, ht⟩
  · exact ⟨hs, rfl⟩
  · exact hostEffect_inv (s := { s with pending := rest }) { hs with } ht

/-- Settles O22: reset with any legal parameters satisfies the invariant, and the default parameters are legal. -/
theorem resetSatisfiesInvariant : Obligations.ResetSatisfiesInvariant :=
  ⟨State.resetWith_inv (by decide), fun _ hp => State.resetWith_inv hp⟩

end Sys2Proof.Machine
end

section
/-! SUPPORT. The lifecycle of a slot (spec/10_state.md rule R32): which moves each command makes, and that no other
access but the reset input makes one. -/

namespace Sys2Proof.Machine

/-- The transitions of R32 that a command makes: which command can move slot `c` from one lifecycle state to
another. -/
def LifeMove (i : Instr) (c : Nat) (old new : Life) : Prop :=
  match new with
  | .uninit       => i = .sreset
  | .initialized  => i = .md5Init c
  | .accumulating => i = .md5Update c ∧ old = .initialized
  | .finalized    => (i = .md5Final c ∧ old.live = true) ∨ i = .md5Digest c

theorem State.slot_eq_of_ctx {s t : State} (h : t.ctx = s.ctx) (c : Nat) : t.slot c = s.slot c := by
  rw [State.slot, State.slot, h]

/-- Where one slot is replaced, only that slot's lifecycle can change, and to the new one (R34). -/
theorem life_of_set {s t : State} {c d : Nat} {x : Slot} (h : t.ctx = s.ctx.set d x)
    (hne : (t.slot c).life ≠ (s.slot c).life) : c = d ∧ (t.slot c).life = x.life := by
  have hset : t.slot c = (s.setSlot d x).slot c := State.slot_eq_of_ctx (s := s.setSlot d x) h c
  by_cases hcd : d = c
  · subst hcd
    by_cases hlen : d < s.ctx.length
    · exact ⟨rfl, by rw [hset, State.slot_setSlot_self s x hlen]⟩
    · have hsame : s.ctx.set d x = s.ctx := List.set_eq_of_length_le (Nat.not_lt.mp hlen)
      exact absurd (congrArg Slot.life (State.slot_eq_of_ctx (h.trans hsame) d)) hne
  · have hsame : t.slot c = s.slot c :=
      hset.trans (State.slot_eq_of_getElem? (State.getElem?_setSlot_ne s x hcd))
    exact absurd (congrArg Slot.life hsame) hne

/-- Every slot is UNINIT once all are reset (R38, R190). -/
theorem life_of_replicate_reset {t : State} {n : Nat} (h : t.ctx = List.replicate n Slot.reset) (c : Nat) :
    (t.slot c).life = .uninit := by
  have hslot : t.slot c = Slot.reset := by
    simp only [State.slot, h, List.getD_eq_getElem?_getD, List.getElem?_replicate]
    split <;> rfl
  rw [hslot]
  rfl

/-- A stream that is not ACCUMULATING is INITIALIZED (R32). -/
theorem Life.eq_initialized {l : Life} (hl : l.live = true) (hne : l ≠ .accumulating) : l = .initialized := by
  cases l with
  | initialized => rfl
  | accumulating => exact absurd rfl hne
  | uninit => cases hl
  | finalized => cases hl

/-- A command that completes moves a lifecycle by a transition of R32 only. -/
theorem effect_life {i : Instr} {s t : State} {c : Nat} (hp : Passes i s) (he : Effect i s t)
    (hne : (t.slot c).life ≠ (s.slot c).life) : LifeMove i c (s.slot c).life (t.slot c).life := by
  cases i with
  | md5Init d =>
    cases he
    obtain ⟨rfl, hl⟩ := life_of_set rfl hne
    rw [hl]
    exact rfl
  | md5Update d =>
    obtain ⟨m, -, -, rfl⟩ := he
    obtain ⟨-, -, hlive⟩ := hp
    obtain ⟨rfl, hl⟩ := life_of_set rfl hne
    rw [hl] at hne ⊢
    exact ⟨rfl, Life.eq_initialized hlive hne.symm⟩
  | md5Final d =>
    cases he
    obtain ⟨-, -, hlive⟩ := hp
    obtain ⟨rfl, hl⟩ := life_of_set (s.finishDigest_ctx d _) hne
    rw [hl]
    exact .inl ⟨rfl, hlive⟩
  | md5Digest d =>
    obtain ⟨m, -, -, rfl⟩ := he
    obtain ⟨rfl, hl⟩ := life_of_set (s.finishDigest_ctx d _) hne
    rw [hl]
    exact .inr rfl
  | to64 => cases he; exact absurd rfl hne
  | apr1Encode =>
    obtain ⟨pw, sp, -, -, rfl⟩ := he
    rw [State.encodeApr1_eq] at hne
    exact absurd rfl hne
  | sreset =>
    cases he
    rw [life_of_replicate_reset (s.softReset_ctx) c]
    exact rfl

/-- An issued word moves a lifecycle by the transitions of the command it decodes to only (R32, R76). -/
theorem issue_life {w : Word} {s t : State} {c : Nat} (h : issue w s = .next t)
    (hne : (t.slot c).life ≠ (s.slot c).life) :
    ∃ i, decode w = .ok i ∧ LifeMove i c (s.slot c).life (t.slot c).life := by
  rcases issue_next h with ⟨-, -, rfl⟩ | ⟨e, -, rfl⟩ | ⟨i, u, hd, hu, rfl⟩
  · exact absurd rfl hne
  · exact absurd rfl hne
  · rcases exec_cases hu with ⟨e, -, -, rfl⟩ | ⟨hp, he⟩
    · exact absurd rfl hne
    · have hmove := effect_life hp he hne
      exact ⟨i, hd, hmove⟩

/-- Settles O24: a plain access keeps the slots, the reset input makes them UNINIT, and a CMD write moves a lifecycle
as its command does (`issue_life`). -/
theorem lifecycleMovesOnlyByItsCommands : Obligations.LifecycleMovesOnlyByItsCommands := by
  intro s t c h hne
  rcases step_next h with rfl | ⟨op, rest, hpending, ht⟩
  · exact absurd rfl hne
  · rcases hostEffect_next ht with ⟨w, rfl, hi⟩ | ⟨rfl, rfl⟩ | hp
    · obtain ⟨i, hd, hmove⟩ := issue_life hi hne
      exact .inr ⟨w, i, rest, hpending, hd, hmove⟩
    · exact .inl ⟨rest, hpending, life_of_replicate_reset (State.hardReset_ctx _) c⟩
    · have hctx : t.ctx = s.ctx := by rw [hp.1]
      exact absurd (congrArg Slot.life (State.slot_eq_of_ctx hctx c)) hne

end Sys2Proof.Machine
end

section
/-! SUPPORT. The host's ports and the reset input (spec/10_state.md rules R23 to R26, R38; spec/30_encoding.md rule
R76). -/

namespace Sys2Proof.Machine

/-- Settles O5: the step issues the word, and the gate of the sticky state lets it through. -/
theorem stepRunsDecodedCommand : Obligations.StepRunsDecodedCommand := by
  intro s w rest i hoffers hgate hd
  rw [hoffers.step_eq]
  show issue w _ = _
  rw [issue_run (s := { s with pending := rest }) hgate, complete_eq_onNext, runDecoded, hd]
  rfl

/-- Settles O25: a read of a register's offset gets that register, and every other read gets 0
(`readReg_unmapped`). -/
theorem hostRegisterRead : Obligations.HostRegisterRead := by
  intro s width offset rest hoffers
  refine ⟨s.readReg width offset, hoffers.step_eq, ?_, fun h => State.readReg_unmapped h s⟩
  rintro rfl
  refine ⟨?_, ?_, ?_, ?_, ?_, ?_, ?_, ?_, ?_⟩ <;> rintro rfl <;> rfl

/-- Settles O26: a write to an argument register's offset stores it, and every write that names no register is
ignored (`writeReg_ignored`). -/
theorem hostRegisterWrite : Obligations.HostRegisterWrite := by
  intro s width offset data rest hoffers
  rw [hoffers.step_eq]
  refine ⟨?_, fun h => writeReg_ignored h data _⟩
  rintro rfl
  refine ⟨?_, ?_, ?_, ?_, ?_, ?_⟩ <;> rintro rfl <;> rfl

/-- The bits of the STATUS word: BUSY, ERR, six zeros, the code, sixteen zeros (R26). -/
theorem Status.getLsbD_word (st : Status) (j : Nat) :
    st.word.getLsbD j =
      if j = 0 then st.busy
      else if j = 1 then st.err
      else if j < 8 then false
      else if j < 16 then st.errcode.code.getLsbD (j - 8)
      else false := by
  simp only [Status.word, BitVec.getLsbD_append, BitVec.getLsbD_zero, BitVec.getLsbD_ofBool]
  simp only [Nat.reduceAdd]
  by_cases h2 : j < 2
  · obtain rfl | rfl : j = 0 ∨ j = 1 := by omega
    · simp
    · simp
  · simp only [h2, if_false, show j ≠ 0 by omega, show j ≠ 1 by omega]
    by_cases h8 : j < 8
    · simp [h8, show j < 16 by omega]
    · simp [h8]

/-- Settles O28: every bit of the STATUS word is read off `getLsbD_word`. -/
theorem statusWordLayout : Obligations.StatusWordLayout := by
  refine ⟨fun st => ⟨?_, ?_, fun j h2 h8 => ?_, fun j h8 => ?_, fun j h16 => ?_⟩, rfl, rfl, rfl, rfl, rfl, rfl⟩
  · rw [Status.getLsbD_word]; rfl
  · rw [Status.getLsbD_word]; rfl
  · rw [Status.getLsbD_word, if_neg (by omega), if_neg (by omega), if_pos h8]
  · rw [Status.getLsbD_word, if_neg (by omega), if_neg (by omega), if_neg (by omega), if_pos (by omega),
      Nat.add_sub_cancel_left]
  · rw [Status.getLsbD_word, if_neg (by omega), if_neg (by omega), if_neg (by omega), if_neg (by omega)]

theorem Status.reset_word : Status.reset.word = 0 := by decide

/-- Settles O29: the step is the reset input's `hardReset`, whose fields are the reset values. -/
theorem hardwareResetValues : Obligations.HardwareResetValues := by
  intro s rest hoffers
  exact ⟨_, hoffers.step_eq, rfl, Status.reset_word, rfl, rfl, rfl, rfl, rfl, rfl, rfl, rfl, fun _ => rfl, rfl, rfl,
    rfl, rfl, rfl⟩

end Sys2Proof.Machine
end

section
/-! SUPPORT. BUF as commands and the host use it (spec/20_memory.md rules R52, R57, R59, R60): where a command faults
at an unwritten byte, where it stores, and what the buffer port answers. -/

namespace Sys2Proof.Machine

/-! ### Reading an unwritten byte -/

/-- A byte string that is held from `a` on is written everywhere. -/
theorem Memory.Holds.read_ne_none {m : Memory} {a k : Nat} {bs : List Byte} (h : m.Holds a bs) (hk : k < bs.length) :
    m.read (a + k) ≠ none := by
  rw [h k hk, List.getElem?_eq_getElem hk]
  exact Option.some_ne_none _

/-- Reading a range with an unwritten byte faults at one (R52). -/
theorem Memory.readBytes_faults {m : Memory} {a n : Nat} (h : ∃ k, k < n ∧ m.read (a + k) = none) :
    ∃ x, m.readBytes a n = .error (.bufUnwritten x) ∧ a ≤ x ∧ x < a + n ∧ m.read x = none := by
  cases hr : m.readBytes a n with
  | error f =>
    obtain ⟨x, rfl, hx⟩ := Memory.readBytes_error hr
    exact ⟨x, rfl, hx⟩
  | ok bs =>
    obtain ⟨k, hk, hnone⟩ := h
    obtain ⟨hlen, hholds⟩ := Memory.readBytes_ok.mp hr
    exact absurd hnone (hholds.read_ne_none (by omega))

/-- Where BUF holds no text operand, reading one faults at an unwritten byte (R52, R160). -/
theorem Memory.text_faults {m : Memory} {a n : Nat} (h : ∀ bs, ¬ m.HoldsText a n bs) :
    ∃ x, m.text a n = .error (.bufUnwritten x) ∧ a ≤ x ∧ x < a + n ∧ m.read x = none := by
  cases hr : m.text a n with
  | error f =>
    obtain ⟨x, rfl, hx⟩ := Memory.text_error hr
    exact ⟨x, rfl, hx⟩
  | ok bs => exact absurd (Memory.text_ok.mp hr) (h bs)

/-- APR1_ENCODE reads its salt source in the check, so a fault there comes before any error of its output range
(R202, log entry 8). -/
theorem check_apr1Encode_salt_error {s : State} {f : Fault} (hpw : s.a0 + s.a1 ≤ s.params.bufBytes)
    (hsp : s.a2 + s.a3 ≤ s.params.bufBytes) (hf : s.buf.text s.a2 s.a3 = .error f) :
    check .apr1Encode s = .error f := by
  have hbounds : ¬ (s.outOfBounds s.a0 s.a1 ∨ s.outOfBounds s.a2 s.a3) := by
    simp only [State.outOfBounds]
    omega
  simp only [check, if_neg hbounds, hf]

/-- Settles O16: once the check has passed, the first read of MD5_UPDATE, MD5_DIGEST and APR1_ENCODE's password faults;
the salt source faults in the check itself. -/
theorem unwrittenByteFaults : Obligations.UnwrittenByteFaults := by
  refine ⟨fun c s hc hsrc hlive hk => ?_, fun c s hc hsrc hdst hk => ?_, fun s hpw hsp hno => ?_,
    fun s sp hpw hsp hsalt hout hno => ?_⟩
  · have hpass : Passes (.md5Update c) s := ⟨hc, hsrc, hlive⟩
    obtain ⟨x, hf, hx⟩ := Memory.readBytes_faults hk
    rw [exec, execMd5Update, check_eq_none.mpr hpass, hf]
    exact ⟨x, rfl, hx⟩
  · have hpass : Passes (.md5Digest c) s := ⟨hc, hsrc, hdst⟩
    obtain ⟨x, hf, hx⟩ := Memory.readBytes_faults hk
    rw [exec, execMd5Digest, check_eq_none.mpr hpass, hf]
    exact ⟨x, rfl, hx⟩
  · obtain ⟨x, hf, hx⟩ := Memory.text_faults hno
    rw [exec, execApr1Encode, check_apr1Encode_salt_error hpw hsp hf]
    exact ⟨x, rfl, hx⟩
  · have hpass : Passes .apr1Encode s := ⟨hpw, hsp, sp, hsalt, hout⟩
    obtain ⟨x, hf, hx⟩ := Memory.text_faults hno
    rw [exec, execApr1Encode, check_eq_none.mpr hpass, hf]
    exact ⟨x, rfl, hx⟩

/-! ### Where a command stores -/

/-- A write of several bytes changes no byte outside its range (R10). -/
theorem Memory.read_writeBytes_outside (m : Memory) {a x : Nat} {bs : List Byte} (h : x < a ∨ a + bs.length ≤ x) :
    (m.writeBytes a bs).read x = m.read x := by
  rw [Memory.read_writeBytes, if_neg (by omega)]

@[simp] theorem State.finishDigest_buf (s : State) (c : Nat) (x : Context) :
    (s.finishDigest c x).buf = s.buf.writeBytes s.a4 (md5Digest x) := by
  rw [State.finishDigest_eq]

/-- `salt` is the salt of APR1_ENCODE's salt source; the other commands have none (R162). -/
def SaltFor (i : Instr) (s : State) (salt : List Byte) : Prop :=
  i = .apr1Encode → ∃ sp, s.buf.HoldsText s.a2 s.a3 sp ∧ salt = saltOf sp

/-- An effect writes one byte string, which fills the command's store range; it is empty for the commands that store
nothing (R59, R74, R176). -/
theorem effect_buf {i : Instr} {s t : State} (h : Effect i s t) :
    ∃ salt bs, SaltFor i s salt ∧ bs.length = (storeRange i s salt).2 ∧
      t.buf = s.buf.writeBytes (storeRange i s salt).1 bs := by
  cases i with
  | md5Init c => cases h; exact ⟨[], [], nofun, rfl, rfl⟩
  | md5Update c => obtain ⟨m, -, -, rfl⟩ := h; exact ⟨[], [], nofun, rfl, rfl⟩
  | md5Final c => cases h; exact ⟨[], _, nofun, md5Digest_length _, s.finishDigest_buf c _⟩
  | md5Digest c => obtain ⟨m, -, -, rfl⟩ := h; exact ⟨[], _, nofun, md5Digest_length _, s.finishDigest_buf c _⟩
  | to64 => cases h; exact ⟨[], _, nofun, to64_length _ _, rfl⟩
  | apr1Encode =>
    obtain ⟨pw, sp, -, hsp, rfl⟩ := h
    rw [State.encodeApr1_eq]
    exact ⟨saltOf sp, _, fun _ => ⟨sp, hsp, rfl⟩, copyBytes_apr1String_length _ _ pw sp, rfl⟩
  | sreset => cases h; exact ⟨[], [], nofun, rfl, rfl⟩

/-- Settles O18: a raised error keeps BUF, and an effect writes the store range only (`effect_buf`). -/
theorem commandsStoreOnlyToTheirRange : Obligations.CommandsStoreOnlyToTheirRange := by
  intro i s t x h hout
  rcases exec_next.mp h with ⟨e, -, -, rfl⟩ | ⟨-, he⟩
  · rfl
  · obtain ⟨salt, bs, hsalt, hlen, hbuf⟩ := effect_buf he
    rw [hbuf, Memory.read_writeBytes_outside _ (hlen ▸ hout salt hsalt)]

/-! ### The buffer port -/

/-- A host write to the buffer port changes BUF alone (R57). -/
theorem State.hostStore_eq (s : State) (width addr : Nat) (b : Byte) :
    s.hostStore width addr b = { s with buf := (s.hostStore width addr b).buf } := by
  unfold State.hostStore
  split <;> rfl

/-- What BUF reads after a host write to the buffer port (R57, R60). -/
theorem State.read_hostStore (s : State) (width addr : Nat) (b : Byte) (x : Nat) :
    (s.hostStore width addr b).buf.read x =
      if x = addr ∧ width = 1 ∧ addr < s.params.bufBytes then some b else s.buf.read x := by
  unfold State.hostStore
  by_cases hacc : s.bufAccess width addr
  · rw [if_pos hacc, Memory.read_write]
    simp only [State.bufAccess] at hacc
    simp only [hacc, and_true]
  · rw [if_neg hacc, if_neg (hacc ·.2)]

/-- A host read of a written byte inside BUF (R60). -/
theorem State.hostFetch_written {s : State} {width addr : Nat} {v : Byte} (hacc : s.bufAccess width addr)
    (hv : s.buf.read addr = some v) : s.hostFetch width addr = s.reply (.byte v) := by
  simp only [State.hostFetch, if_pos hacc, hv]

/-- A host read of an unwritten byte inside BUF takes a free draw (R52). -/
theorem State.hostFetch_unwritten {s : State} {width addr : Nat} (hacc : s.bufAccess width addr)
    (hv : s.buf.read addr = none) :
    s.hostFetch width addr = { s with draws := s.draws + 1 }.reply (.byte (Config.freeByte s.draws)) := by
  simp only [State.hostFetch, if_pos hacc, hv]

/-- A host read of another width or outside BUF (R57). -/
theorem State.hostFetch_ignored {s : State} {width addr : Nat} (hacc : ¬ s.bufAccess width addr) :
    s.hostFetch width addr = s.reply (.byte 0) := by
  rw [State.hostFetch, if_neg hacc]

/-- Settles O27: a write changes BUF as `read_hostStore` says; a read is of a written byte, of an unwritten one, or
ignored, one `hostFetch` lemma for each. -/
theorem hostBufferPort : Obligations.HostBufferPort := by
  refine ⟨fun s width addr data rest hoffers => ?_, fun s width addr rest hoffers => ?_⟩
  · rw [hoffers.step_eq, hostEffect, State.hostStore_eq]
    exact ⟨_, rfl, State.read_hostStore { s with pending := rest } width addr data⟩
  · rw [hoffers.step_eq, hostEffect]
    by_cases hacc : width = 1 ∧ addr < s.params.bufBytes
    · have hnot : ¬ (width ≠ 1 ∨ s.params.bufBytes ≤ addr) := by omega
      cases hv : s.buf.read addr with
      | some v =>
        rw [State.hostFetch_written (s := { s with pending := rest }) hacc hv]
        exact ⟨v, 0, rfl, fun _ _ => ⟨fun w hw => ⟨Option.some.inj hw, rfl⟩, nofun⟩, fun h => absurd h hnot⟩
      | none =>
        rw [State.hostFetch_unwritten (s := { s with pending := rest }) hacc hv]
        exact ⟨_, 1, rfl, fun _ _ => ⟨nofun, fun _ => ⟨rfl, rfl⟩⟩, fun h => absurd h hnot⟩
    · rw [State.hostFetch_ignored (s := { s with pending := rest }) hacc]
      exact ⟨0, 0, rfl, fun hw ha => absurd ⟨hw, ha⟩ hacc, fun _ => ⟨rfl, rfl⟩⟩

end Sys2Proof.Machine
end

section
/-! SUPPORT. The decoder through the three fields of the command format (spec/30_encoding.md rules R70 to R77): a word
is determined by its fields, and when decoding succeeds and when it does not is said once. -/

namespace Sys2Proof

open Laws.Fields (opcode)

/-! ### A word and its fields -/

/-- The three fields make up the word (R70). -/
theorem append_fields (w : Word) : (rsvField w ++ ctxField w) ++ opField w = w := by
  have hupper : rsvField w ++ ctxField w = w.extractLsb' 4 28 :=
    BitVec.extractLsb'_append_extractLsb'_eq_extractLsb' rfl
  rw [hupper]
  exact (BitVec.extractLsb'_append_extractLsb'_eq_extractLsb' rfl).trans BitVec.extractLsb'_eq_self

/-- Two words are equal exactly if their fields are. -/
theorem word_eq_iff_fields {w v : Word} :
    w = v ↔ rsvField w = rsvField v ∧ ctxField w = ctxField v ∧ opField w = opField v := by
  constructor
  · rintro rfl
    exact ⟨rfl, rfl, rfl⟩
  · rintro ⟨hrsv, hctx, hop⟩
    rw [← append_fields w, hrsv, hctx, hop, append_fields]

@[simp] theorem rsvField_and (w v : Word) : rsvField (w &&& v) = rsvField w &&& rsvField v := BitVec.extractLsb'_and
@[simp] theorem ctxField_and (w v : Word) : ctxField (w &&& v) = ctxField w &&& ctxField v := BitVec.extractLsb'_and
@[simp] theorem opField_and (w v : Word) : opField (w &&& v) = opField w &&& opField v := BitVec.extractLsb'_and

/-- A word with the reserved bits 0 is the format of its slot number and opcode (R70). -/
theorem formatC_of_fields {w : Word} (h : rsvField w = 0) : formatC (ctxField w).toNat (opField w) = w := by
  rw [formatC, BitVec.ofNat_toNat, BitVec.setWidth_eq]
  have happend := append_fields w
  rwa [h] at happend

/-! The shifts and masks that the statements use give the fields. -/

theorem toNat_and_0xF (w : Word) : (w &&& 0xF).toNat = (opField w).toNat := by
  rw [BitVec.toNat_and, opField, BitVec.extractLsb'_toNat]
  exact Nat.and_two_pow_sub_one_eq_mod w.toNat 4

theorem opField_shiftRight_4 (w : Word) : opField (w >>> 4) = ctxField w := by
  rw [← BitVec.toNat_inj, opField, ctxField, BitVec.extractLsb'_toNat, BitVec.extractLsb'_toNat,
    BitVec.toNat_ushiftRight, Nat.shiftRight_zero]

theorem shiftRight_8_eq_zero_iff (w : Word) : w >>> 8 = 0 ↔ rsvField w = 0 := by
  rw [← BitVec.toNat_inj, ← BitVec.toNat_inj, rsvField, BitVec.extractLsb'_toNat, BitVec.toNat_ushiftRight,
    Nat.shiftRight_eq_div_pow]
  have := w.isLt
  simp only [BitVec.ofNat_eq_ofNat, BitVec.toNat_ofNat]
  omega

/-! ### The encoder -/

/-- Every command is encoded in the one format (R70, R71). -/
theorem encode_eq_formatC (i : Instr) : encode i = formatC (i.slot?.getD 0) (opcode i) := by
  cases i <;> rfl

/-- A command is well formed exactly if its slot number fits the field CTX (R70). -/
theorem wellFormed_iff {i : Instr} : i.wellFormed = true ↔ i.slot?.getD 0 < 16 := by
  cases i <;> simp [Instr.wellFormed, Instr.slot?]

/-- The fields of a well-formed command's word, for every command (R70, R71). -/
theorem fields_encode {i : Instr} (h : i.wellFormed = true) :
    rsvField (encode i) = 0 ∧ (ctxField (encode i)).toNat = i.slot?.getD 0 ∧ opField (encode i) = opcode i := by
  rw [encode_eq_formatC]
  exact Laws.Fields.formatC_fields ⟨_, wellFormed_iff.mp h⟩ (opcode i)

/-! ### The decoder -/

@[simp] theorem withoutSlot_eq_ok {c : Nat} {i j : Instr} : withoutSlot c i = .ok j ↔ c = 0 ∧ i = j := by
  by_cases hc : c = 0 <;> simp [withoutSlot, hc]

@[simp] theorem withoutSlot_eq_error {c : Nat} {i : Instr} : (∃ e, withoutSlot c i = .error e) ↔ c ≠ 0 := by
  by_cases hc : c = 0 <;> simp [withoutSlot, hc]

/-- OP and CTX select the command that has them as opcode and slot number (R71, R75). -/
theorem decodeOp_eq_ok {op c : Nat} {i : Instr} :
    decodeOp op c = .ok i ↔ op = (opcode i).toNat ∧ c = i.slot?.getD 0 := by
  constructor
  · intro h
    unfold decodeOp at h
    split at h
    case h_8 => cases h
    case h_5 | h_6 | h_7 =>
      obtain ⟨rfl, rfl⟩ := withoutSlot_eq_ok.mp h
      exact ⟨rfl, rfl⟩
    all_goals
      cases h
      exact ⟨rfl, rfl⟩
  · rintro ⟨rfl, rfl⟩
    cases i <;> rfl

/-- OP and CTX select no command exactly if OP is illegal or CTX is not 0 where it must be (R77). -/
theorem decodeOp_eq_error {op c : Nat} (hop : op < 16) :
    (∃ e, decodeOp op c = .error e) ↔
      op = 0 ∨ (7 ≤ op ∧ op ≤ 0xE) ∨ (c ≠ 0 ∧ (op = 5 ∨ op = 6 ∨ op = 0xF)) := by
  unfold decodeOp
  split
  case h_8 h1 h2 h3 h4 h5 h6 h7 =>
    simp only [imp_false] at h1 h2 h3 h4 h5 h6 h7
    exact iff_of_true ⟨_, rfl⟩ (by omega)
  case h_5 | h_6 | h_7 =>
    rw [withoutSlot_eq_error]
    omega
  all_goals exact iff_of_false nofun (by omega)

/-- A word decodes to a command exactly if its fields are the command's: reserved bits 0, opcode and slot number
(R70, R71, R75). -/
theorem decode_eq_ok {w : Word} {i : Instr} :
    decode w = .ok i ↔ rsvField w = 0 ∧ opField w = opcode i ∧ (ctxField w).toNat = i.slot?.getD 0 := by
  unfold decode
  split
  · next h => simp only [decodeOp_eq_ok, BitVec.toNat_inj, h, true_and]
  · next h => simp only [h, false_and, reduceCtorEq]

/-- A word is illegal exactly if a reserved bit is set, or OP and CTX select no command (R77). -/
theorem decode_eq_error {w : Word} :
    (∃ e, decode w = .error e) ↔
      rsvField w ≠ 0 ∨ ∃ e, decodeOp (opField w).toNat (ctxField w).toNat = .error e := by
  unfold decode
  split
  · next h => simp only [h, ne_eq, not_true_eq_false, false_or]
  · next h => simp only [h, ne_eq, not_false_eq_true, true_or, Except.error.injEq, exists_eq']

/-- Settles O1: decoding looks at the fields only (`decode_eq_ok`), the encoder puts them there (`fields_encode`), and
they determine the word (`formatC_of_fields`). -/
theorem decodeInvertsEncode : Obligations.DecodeInvertsEncode := by
  intro w i
  constructor
  · intro h
    obtain ⟨hrsv, hop, hctx⟩ := decode_eq_ok.mp h
    refine ⟨wellFormed_iff.mpr (hctx ▸ (ctxField w).isLt), ?_⟩
    rw [encode_eq_formatC, ← hop, ← hctx, formatC_of_fields hrsv]
  · rintro ⟨hwf, rfl⟩
    obtain ⟨hrsv, hctx, hop⟩ := fields_encode hwf
    exact decode_eq_ok.mpr ⟨hrsv, hop, hctx⟩

/-- Settles O3: each word is a literal, and `decode` computes its answer. -/
theorem specWordsDecode : Obligations.SpecWordsDecode :=
  ⟨rfl, rfl, rfl, rfl, rfl, rfl, rfl, rfl, rfl, rfl, rfl, rfl⟩

/-! ### The opcode table -/

/-- What the fields of a row's mask and pattern say of its command (R72): the mask covers RSV and OP, and it covers CTX
where the command names no slot; the pattern is the command's opcode. -/
structure OpcodeRow.FieldsFit (r : OpcodeRow) : Prop where
  mask_rsv : rsvField r.mask = BitVec.allOnes 24
  mask_op : opField r.mask = BitVec.allOnes 4
  pattern_rsv : rsvField r.pattern = 0
  pattern_ctx : ctxField r.pattern = 0
  pattern_op : ∀ c, opcode (r.command c) = opField r.pattern
  mask_ctx : (ctxField r.mask = 0 ∧ ∀ c, (r.command c).slot? = some c) ∨
    (ctxField r.mask = BitVec.allOnes 4 ∧ ∀ c, (r.command c).slot? = none)

theorem opcodeTable_fieldsFit : ∀ r ∈ opcodeTable, r.FieldsFit := by
  simp only [opcodeTable, List.forall_mem_cons, List.not_mem_nil, false_imp_iff, implies_true, and_true]
  refine ⟨?_, ?_, ?_, ?_, ?_, ?_, ?_⟩
  iterate 4 exact ⟨by decide, by decide, by decide, by decide, fun _ => rfl, .inl ⟨by decide, fun _ => rfl⟩⟩
  iterate 3 exact ⟨by decide, by decide, by decide, by decide, fun _ => rfl, .inr ⟨by decide, fun _ => rfl⟩⟩

/-- A row matches exactly if the word decodes to the row's command with the word's slot number (R72). -/
theorem row_matches_iff {r : OpcodeRow} (hr : r ∈ opcodeTable) (w : Word) :
    w &&& r.mask = r.pattern ↔ decode w = .ok (r.command (ctxField w).toNat) := by
  obtain ⟨hrsv, hop, hprsv, hpctx, hcode, ⟨hctx, hslot⟩ | ⟨hctx, hslot⟩⟩ := opcodeTable_fieldsFit r hr
  all_goals
    simp only [word_eq_iff_fields, rsvField_and, ctxField_and, opField_and, hrsv, hctx, hop, hprsv, hpctx,
      BitVec.and_allOnes, decode_eq_ok, hcode, hslot, Option.getD_some, Option.getD_none]
  · simp only [BitVec.ofNat_eq_ofNat, BitVec.and_zero, true_and, and_true]
  · rw [and_comm (a := ctxField w = 0), ← BitVec.toNat_inj (x := ctxField w)]
    rfl

/-- Every command stands in some row of the table (R72). -/
theorem exists_row_of_instr (i : Instr) : ∃ r ∈ opcodeTable, r.command (i.slot?.getD 0) = i := by
  cases i <;> simp [opcodeTable, Instr.slot?]

/-- The rows have different opcodes (R72). -/
theorem rows_with_opcode_le_one (op : BitVec 4) :
    (opcodeTable.filter fun r => decide (opField r.pattern = op)).length ≤ 1 := by
  revert op
  decide

/-- At most one row matches a word: a row that does has the word's OP in its pattern (R72). -/
theorem rows_matching_le_one (w : Word) :
    (opcodeTable.filter fun r => decide (w &&& r.mask = r.pattern)).length ≤ 1 := by
  refine Nat.le_trans ?_ (rows_with_opcode_le_one (opField w))
  rw [← List.countP_eq_length_filter, ← List.countP_eq_length_filter]
  refine List.countP_mono_left fun r hr hmatch => decide_eq_true ?_
  obtain ⟨-, hop, -⟩ := decode_eq_ok.mp ((row_matches_iff hr w).mp (of_decide_eq_true hmatch))
  rw [hop, (opcodeTable_fieldsFit r hr).pattern_op]

/-- Decoding a word is finding its row (R72, R75). -/
theorem decode_eq_ok_iff_row {w : Word} {i : Instr} :
    decode w = .ok i ↔ ∃ r ∈ opcodeTable, w &&& r.mask = r.pattern ∧ i = r.command (ctxField w).toNat := by
  constructor
  · intro h
    obtain ⟨-, -, hctx⟩ := decode_eq_ok.mp h
    obtain ⟨r, hr, hcommand⟩ := exists_row_of_instr i
    rw [← hctx] at hcommand
    exact ⟨r, hr, (row_matches_iff hr w).mpr (hcommand ▸ h), hcommand.symm⟩
  · rintro ⟨r, hr, hmatch, rfl⟩
    exact (row_matches_iff hr w).mp hmatch

/-- Settles O2: the rows have different opcodes (`rows_matching_le_one`), and a row matches exactly if its command is
the one decoded (`decode_eq_ok_iff_row`). -/
theorem wordSelectsAtMostOneRow : Obligations.WordSelectsAtMostOneRow := by
  refine ⟨rfl, fun w => ⟨rows_matching_le_one w, fun i => ?_, fun hno => ?_⟩⟩
  · rw [toNat_and_0xF, opField_shiftRight_4]
    exact decode_eq_ok_iff_row
  · cases hd : decode w with
    | error e => exact ⟨e, rfl⟩
    | ok i =>
      obtain ⟨r, hr, hmatch, -⟩ := decode_eq_ok_iff_row.mp hd
      exact absurd hmatch (hno r hr)

/-! ### Illegal words -/

/-- The illegal words, in the shifts and masks of R77. -/
theorem decode_eq_error_iff {w : Word} :
    (∃ e, decode w = .error e) ↔
      w >>> 8 ≠ 0 ∨ w &&& 0xF = 0 ∨ (7 ≤ (w &&& 0xF).toNat ∧ (w &&& 0xF).toNat ≤ 0xE) ∨
        ((w >>> 4) &&& 0xF ≠ 0 ∧ (w &&& 0xF = 5 ∨ w &&& 0xF = 6 ∨ w &&& 0xF = 0xF)) := by
  simp only [ne_eq, shiftRight_8_eq_zero_iff, ← BitVec.toNat_inj (x := w &&& 0xF),
    ← BitVec.toNat_inj (x := (w >>> 4) &&& 0xF), toNat_and_0xF, opField_shiftRight_4]
  rw [decode_eq_error, decodeOp_eq_error (opField w).isLt]
  rfl

end Sys2Proof

namespace Sys2Proof.Machine

/-- An illegal word, issued while ERR = 0, raises ILLEGAL_CMD (R76, R77). -/
theorem issue_illegal {w : Word} {s : State} (hd : ∃ e, decode w = .error e) (herr : s.status.err = false) :
    issue w s = .next { s with cmd := w, status := ⟨false, true, .illegalCmd⟩ } := by
  obtain ⟨e, he⟩ := hd
  rw [issue_run (.inl herr), runDecoded, he]
  simp only [complete, State.raiseError_of_clear, State.setBusy_status, Status.withBusy_err, herr]
  rfl

/-- Settles O4: the conditions of R77 are read off the fields (`decode_eq_error_iff`), and the step issues the word
(`issue_illegal`). -/
theorem illegalWordRaisesIllegalCmd : Obligations.IllegalWordRaisesIllegalCmd := by
  intro w
  refine ⟨decode_eq_error_iff, fun s rest hoffers herr hd => ?_⟩
  rw [hoffers.step_eq]
  exact issue_illegal (s := { s with pending := rest }) hd herr

end Sys2Proof.Machine
end

section
/-! SUPPORT. The one-shot digest and the three-command sequence (spec/30_encoding.md rule R79). -/

namespace Sys2Proof.Machine

/-- A command that leaves ERR = 0 has completed without error (R203). -/
theorem exec_completed {i : Instr} {s t : State} (h : exec i s = .next t) (herr : t.status.err = false) :
    Passes i s ∧ Effect i s t := by
  rcases exec_cases h with ⟨e, -, -, rfl⟩ | hcompleted
  · simp at herr
  · exact hcompleted

/-- A slot that holds a stream exists. -/
theorem State.lt_length_of_live {s : State} {c : Nat} (h : (s.slot c).life.live = true) : c < s.ctx.length := by
  refine Nat.lt_of_not_le fun hc => ?_
  have hslot : s.slot c = Slot.reset := by
    rw [State.slot, List.getD_eq_getElem?_getD, List.getElem?_eq_none hc, Option.getD_none]
  rw [hslot] at h
  cases h

/-- Of two replacements of a slot, and the same RESULT written after each, the last is what stays. -/
theorem State.setSlot_setResult_twice (s : State) (c : Nat) (x y : Slot) (v : Word) :
    (((s.setSlot c x).setResult v).setSlot c y).setResult v = (s.setSlot c y).setResult v := by
  simp only [State.setSlot, State.setResult, List.set_set]

/-- A digest overwrites the slot and RESULT, so what they held does not matter (R132). -/
theorem State.finishDigest_setSlot_setResult (s : State) (c : Nat) (x : Slot) (v : Word) (y : Context) :
    ((s.setSlot c x).setResult v).finishDigest c y = s.finishDigest c y := by
  simp only [State.finishDigest_eq, State.setSlot, State.setResult, List.set_set]
  rfl

/-- MD5_INIT and MD5_UPDATE that both complete: the slot exists, the source is in bounds and written, and the slot
accumulates its bytes from a fresh context (R130, R131). -/
theorem init_update_completed {c : Nat} {s s1 s2 : State} (hinit : exec (.md5Init c) s = .next s1)
    (hupdate : exec (.md5Update c) s1 = .next s2) (herr : s2.status.err = false) :
    c < s.params.numCtx ∧ c < s.ctx.length ∧ s.a0 + s.a1 ≤ s.params.bufBytes ∧
    ∃ m, m.length = s.a1 ∧ s.buf.Holds s.a0 m ∧
      s2 = (s.setSlot c ⟨md5Update md5Init m, .accumulating⟩).setResult 0 := by
  obtain ⟨⟨hc, hsrc, hlive⟩, heffect⟩ := exec_completed hupdate herr
  have hstatus : s2.status = s1.status := (effect_frame heffect).2.resolve_left nofun
  have herr1 : s1.status.err = false := hstatus ▸ herr
  obtain ⟨-, rfl⟩ := exec_completed hinit herr1
  obtain ⟨m, hlen, hholds, rfl⟩ := heffect
  have hlength : c < s.ctx.length := by simpa using State.lt_length_of_live hlive
  have hslot : ((s.setSlot c ⟨md5Init, .initialized⟩).setResult 0).slot c = ⟨md5Init, .initialized⟩ :=
    State.slot_setSlot_self s _ hlength
  refine ⟨hc, hlength, hsrc, m, hlen, hholds, ?_⟩
  rw [hslot, State.setSlot_setResult_twice]

/-- A command whose check finds an error while ERR = 0 changes STATUS alone (R203). -/
theorem exec_failed {i : Instr} {s : State} {e : ErrorCode} (herr : s.status.err = false) (h : check i s = .ok e)
    (he : e ≠ .none) : exec i s = .next (s.failed e) := by
  rw [exec_of_check_error h he, State.raiseError_of_clear _ herr]

/-- Whether the source of MD5_DIGEST is in bounds or not, a digest that does not fit is out of bounds (R202). -/
theorem check_md5Digest_dst {c : Nat} {s : State} (hc : c < s.params.numCtx) (hdst : s.params.bufBytes < s.a4 + 16) :
    check (.md5Digest c) s = .ok .bounds := by
  simp only [check, if_neg (Nat.not_le.mpr hc), State.outOfBounds, Config.digestBytes, hdst, if_true, ite_self]

/-- The bounds of MD5_FINAL's digest are checked before its slot's lifecycle (R202). -/
theorem check_md5Final_dst {c : Nat} {s : State} (hc : c < s.params.numCtx) (hdst : s.params.bufBytes < s.a4 + 16) :
    check (.md5Final c) s = .ok .bounds := by
  simp only [check, if_neg (Nat.not_le.mpr hc), State.outOfBounds, Config.digestBytes, hdst, if_true]

/-- Settles O40: MD5_INIT and MD5_UPDATE leave a fresh context that has taken in the source
(`init_update_completed`), which is the context MD5_DIGEST makes; what else they wrote, the digest overwrites. -/
theorem oneShotEqualsStream : Obligations.OneShotEqualsStream := by
  intro c s s1 s2 herr hinit hupdate herr2
  obtain ⟨hc, hlength, hsrc, m, hlen, hholds, rfl⟩ := init_update_completed hinit hupdate herr2
  have hslot : ((s.setSlot c ⟨md5Update md5Init m, .accumulating⟩).setResult 0).slot c =
      ⟨md5Update md5Init m, .accumulating⟩ := State.slot_setSlot_self s _ hlength
  refine ⟨fun s3 hfinal herr3 => ?_, fun hdst => ⟨?_, ?_, by rw [hslot]⟩⟩
  · obtain ⟨⟨-, hdst, -⟩, heffect⟩ := exec_completed hfinal herr3
    have hpass : Passes (.md5Digest c) s := ⟨hc, hsrc, hdst⟩
    refine (exec_completes hpass).mpr ⟨m, hlen, hholds, ?_⟩
    rw [heffect, hslot, State.finishDigest_setSlot_setResult]
  · exact exec_failed herr (check_md5Digest_dst hc hdst) (by decide)
  · exact exec_failed herr2 (check_md5Final_dst hc hdst) (by decide)

end Sys2Proof.Machine
end

section
/-! SUPPORT. The word codec (spec/40_word_codec.md rules R100 to R104): the bytes of a word are the digits of its value
to the base 256, least-significant first, and a list of words is coded word by word. -/

namespace Sys2Proof.Machine

/-! ### The bytes of a value -/

/-- Byte `k` of a value is its digit `k` to the base 256. -/
theorem extractLsb'_byte {n : Nat} (v : BitVec n) (k : Nat) :
    v.extractLsb' (8 * k) 8 = BitVec.ofNat 8 (v.toNat / 256 ^ k) := by
  rw [BitVec.extractLsb', Nat.shiftRight_eq_div_pow, Nat.pow_mul]

/-- Bits of a bit range that holds them all are bits of the whole value. -/
theorem extractLsb'_extractLsb' {n start len start' len' : Nat} (v : BitVec n) (h : start' + len' ≤ len) :
    (v.extractLsb' start len).extractLsb' start' len' = v.extractLsb' (start + start') len' := by
  ext j hj
  have hlt : start' + j < len := by omega
  simp [hlt, Nat.add_assoc]

/-- `unle32` sets the four bytes side by side, the last one highest (R101): a bit of the word lies in one byte only. -/
theorem unle32_eq_append (s0 s1 s2 s3 : Byte) : unle32 s0 s1 s2 s3 = s3 ++ s2 ++ s1 ++ s0 := by
  ext k hk
  rw [unle32]
  grind

/-- A byte appended below a value is its lowest digit. -/
theorem toNat_append_byte {n : Nat} (x : BitVec n) (b : Byte) : (x ++ b).toNat = b.toNat + 256 * x.toNat := by
  rw [BitVec.toNat_append, ← Nat.shiftLeft_add_eq_or_of_lt b.isLt, Nat.shiftLeft_eq, Nat.mul_comm, Nat.add_comm]

/-- The value of `unle32` in its bytes (R101). -/
theorem unle32_toNat (s0 s1 s2 s3 : Byte) : (unle32 s0 s1 s2 s3).toNat =
    s0.toNat + 256 * s1.toNat + 256 ^ 2 * s2.toNat + 256 ^ 3 * s3.toNat := by
  simp only [unle32_eq_append, toNat_append_byte]
  omega

/-- `le32` lists the four digits of a word to the base 256 (R100). -/
theorem le32_eq_map (w : Word) : le32 w = (List.range 4).map fun k => BitVec.ofNat 8 (w.toNat / 256 ^ k) := by
  simp only [← extractLsb'_byte]
  rfl

/-- `le64` lists the eight digits of a 64-bit value to the base 256 (R104). -/
theorem le64_eq_map (v : BitVec 64) : le64 v = (List.range 8).map fun k => BitVec.ofNat 8 (v.toNat / 256 ^ k) := by
  simp (disch := decide) only [le64, le32, extractLsb'_extractLsb', ← extractLsb'_byte]
  rfl

/-! ### The codec laws -/

/-- The second codec law (R103): the digits of the weighted sum are the bytes themselves. -/
theorem le32_unle32 (s0 s1 s2 s3 : Byte) : le32 (unle32 s0 s1 s2 s3) = [s0, s1, s2, s3] := by
  simp only [le32, List.cons.injEq, and_true, BitVec.toNat_eq, BitVec.extractLsb'_toNat, unle32_toNat,
    Nat.shiftRight_eq_div_pow]
  omega

/-- The first codec law (R103): a word is the weighted sum of its digits. -/
theorem unle32_le32 (w : Word) :
    unle32 (w.extractLsb' 0 8) (w.extractLsb' 8 8) (w.extractLsb' 16 8) (w.extractLsb' 24 8) = w := by
  apply BitVec.eq_of_toNat_eq
  simp only [unle32_toNat, BitVec.extractLsb'_toNat, Nat.shiftRight_eq_div_pow]
  omega

/-- Decoding begins with the word whose bytes come first (R102). -/
@[simp] theorem decodeWords_le32_append (w : Word) (s : List Byte) :
    decodeWords (le32 w ++ s) = w :: decodeWords s := by
  simp only [le32, List.cons_append, List.nil_append, decodeWords, unle32_le32]

/-- Encoding goes word by word (R102). -/
@[simp] theorem encodeWords_cons (w : Word) (ws : List Word) : encodeWords (w :: ws) = le32 w ++ encodeWords ws := rfl

/-- The third codec law (R103), word by word. -/
theorem decodeWords_encodeWords (ws : List Word) : decodeWords (encodeWords ws) = ws := by
  induction ws with
  | nil => rfl
  | cons w ws ih => rw [encodeWords_cons, decodeWords_le32_append, ih]

/-- The fourth codec law (R103), four bytes at a time; a length that is a multiple of 4 leaves no rest. -/
theorem encodeWords_decodeWords : ∀ s : List Byte, s.length % 4 = 0 → encodeWords (decodeWords s) = s
  | [], _ => rfl
  | s0 :: s1 :: s2 :: s3 :: s, h => by
    have hs : s.length % 4 = 0 := by rwa [← Nat.add_mod_right]
    calc encodeWords (decodeWords (s0 :: s1 :: s2 :: s3 :: s))
        = le32 (unle32 s0 s1 s2 s3) ++ encodeWords (decodeWords s) := rfl
      _ = [s0, s1, s2, s3] ++ s := by rw [le32_unle32, encodeWords_decodeWords s hs]
  | [_], h | [_, _], h | [_, _, _], h => absurd h (by simp)

/-- Settles O32: the laws for one word are facts about its digits to the base 256 (`unle32_toNat`), and the laws for
lists follow word by word. -/
theorem codecLaws : Obligations.CodecLaws :=
  ⟨fun w => ⟨_, _, _, _, rfl, unle32_le32 w⟩, le32_unle32, decodeWords_encodeWords, encodeWords_decodeWords⟩

/-- Settles O33: `le32` and `le64` list the digits of their value to the base 256 (`le32_eq_map`, `le64_eq_map`), and
`unle32` weights its bytes by their places (`unle32_toNat`). -/
theorem littleEndianBytes : Obligations.LittleEndianBytes := by
  refine ⟨fun w => ⟨rfl, fun k hk => ?_⟩, unle32_toNat, fun v => ⟨rfl, fun k hk => ?_⟩, by decide, by decide, by decide⟩
  · simp [le32_eq_map, hk]
  · simp [le64_eq_map, hk]

end Sys2Proof.Machine
end

section
/-! SUPPORT. The digest engine's functions (spec/41_md5_engine.md rules R111 to R129): the step table and the mixing
functions, and the streaming engine as MD5 of the byte string it has taken in. -/

namespace Sys2Proof.Machine

/-! ### Mixing functions and step table -/

/-- `F` selects by `x` (R111). -/
theorem getLsbD_mixF (x y z : Word) {j : Nat} (hj : j < 32) :
    (mixF x y z).getLsbD j = if x.getLsbD j then y.getLsbD j else z.getLsbD j := by
  rw [mixF, BitVec.getLsbD_or, BitVec.getLsbD_and, BitVec.getLsbD_and, BitVec.getLsbD_not]
  cases x.getLsbD j <;> simp [hj]

/-- `G` selects by `z` (R112). -/
theorem getLsbD_mixG (x y z : Word) {j : Nat} (hj : j < 32) :
    (mixG x y z).getLsbD j = if z.getLsbD j then x.getLsbD j else y.getLsbD j := by
  rw [mixG, BitVec.getLsbD_or, BitVec.getLsbD_and, BitVec.getLsbD_and, BitVec.getLsbD_not]
  cases z.getLsbD j <;> simp [hj]

theorem getLsbD_mixH (x y z : Word) (j : Nat) :
    (mixH x y z).getLsbD j = (x.getLsbD j ^^ (y.getLsbD j ^^ z.getLsbD j)) := by
  rw [mixH, BitVec.getLsbD_xor, BitVec.getLsbD_xor, Bool.xor_assoc]

theorem getLsbD_mixI (x y z : Word) {j : Nat} (hj : j < 32) :
    (mixI x y z).getLsbD j = (y.getLsbD j ^^ (x.getLsbD j || !z.getLsbD j)) := by
  rw [mixI, BitVec.getLsbD_xor, BitVec.getLsbD_or, BitVec.getLsbD_not, decide_eq_true hj, Bool.true_and]

theorem stepTable_length : stepTable.length = 64 := rfl

/-- A step below 64 has a row. -/
theorem stepTable_getElem? {i : Nat} (h : i < 64) : stepTable[i]? = some stepTable[i] :=
  List.getElem?_eq_getElem h

/-- Which mixing function each step uses (R115). -/
theorem stepTable_fn : ∀ (i : Nat) (h : i < 64), (stepTable[i]'h).fn =
    if i ≤ 15 then .F else if i ≤ 31 then .G else if i ≤ 47 then .H else .I := by
  decide

/-- Settles O34: each function is taken apart at one bit (`getLsbD_mixF` and its like), and the step table is read row
by row (`stepTable_fn`). -/
theorem mixingFunctionsBitwise : Obligations.MixingFunctionsBitwise := by
  refine ⟨fun x y z j hj => ⟨getLsbD_mixF x y z hj, getLsbD_mixG x y z hj, getLsbD_mixH x y z j, getLsbD_mixI x y z hj⟩,
    fun i hi => ⟨_, stepTable_getElem? hi, ?_⟩, by decide, by decide, by decide, by decide, by decide⟩
  rw [stepTable_fn i hi]
  simp only [apply_ite MixFn.apply]
  rfl

/-- `KX[i]` and `SH[i]` by the formulas of their group (R117, R118). -/
theorem stepTable_kx_sh : ∀ (i : Nat) (h : i < 64),
    (stepTable[i]'h).kx = (if i < 16 then i else if i < 32 then (1 + 5 * i) % 16
      else if i < 48 then (5 + 3 * i) % 16 else 7 * i % 16) ∧
    some (stepTable[i]'h).sh = (if i < 16 then [7, 12, 17, 22] else if i < 32 then [5, 9, 14, 20]
      else if i < 48 then [4, 11, 16, 23] else [6, 10, 15, 21])[i % 4]? ∧
    4 ≤ (stepTable[i]'h).sh ∧ (stepTable[i]'h).sh ≤ 23 := by
  decide

/-- Settles O35: the 64 rows are compared with the formulas (`stepTable_kx_sh`), and each index is counted in each
group. -/
theorem stepTableFollowsFormulas : Obligations.StepTableFollowsFormulas :=
  ⟨stepTable_length, fun i hi => ⟨_, stepTable_getElem? hi, stepTable_kx_sh i hi⟩, by decide⟩

/-! ### Vectors of spec/95_test_vectors.md -/

/-- Settles O36: the working words after step 0 and step 63 are computed from the block, and the compress adds the
latter to the IV (R121). -/
theorem compressOfAbcBlock : Obligations.CompressOfAbcBlock := by
  unfold Obligations.CompressOfAbcBlock
  intro block X
  have hlast : stepTable.foldl (md5Step X) iv = ⟨0x310ade8f, 0xc08226b3, 0xe484b9d8, 0x624d8cb2⟩ := by decide +kernel
  refine ⟨by decide +kernel, hlast, fun v hv => ?_⟩
  simp only [compress, hv]
  rw [hlast]
  decide

/-- Settles O41: each message is one padded block, and the engine computes its digest. -/
theorem sourceDigests : Obligations.SourceDigests :=
  ⟨by decide +kernel, by decide +kernel, by decide +kernel, by decide +kernel⟩

/-! ### Streams (R125, R126) -/

/-- Two updates are one by the concatenation (R126). -/
theorem md5Update_append (ctx : Context) (m1 m2 : List Byte) :
    md5Update (md5Update ctx m1) m2 = md5Update ctx (m1 ++ m2) := by
  simp only [md5Update, md5UpdateRaw_withCount, md5UpdateRaw_append, md5UpdateRaw_count, List.length_append,
    Nat.mul_add, BitVec.ofNat_add, BitVec.add_assoc]

/-- One update per chunk is one update by all the bytes (R126). -/
theorem foldl_md5Update (chunks : List (List Byte)) (ctx : Context) :
    chunks.foldl md5Update ctx = md5Update ctx chunks.flatten := by
  induction chunks generalizing ctx with
  | nil => exact (md5Update_nil ctx).symm
  | cons m chunks ih => rw [List.foldl_cons, ih, md5Update_append, List.flatten_cons]

/-- A stream from `md5_init` has taken in the bytes it was fed (R126). -/
theorem md5Update_md5Init_took (m : List Byte) : (md5Update md5Init m).Took iv m :=
  (md5Init_took.update m).withCount _

/-- The counter of a stream from `md5_init` is the message's bit length, modulo 2^64 (R110, R126). -/
theorem md5Update_md5Init_count (m : List Byte) : (md5Update md5Init m).count = BitVec.ofNat 64 (8 * m.length) := by
  rw [md5Update_count]
  exact BitVec.zero_add _

/-- Settles O37: a list of chunks is one update by their concatenation (`foldl_md5Update`), after which the context has
taken in exactly those bytes (`md5Update_md5Init_took`). -/
theorem chunkingInvariance : Obligations.ChunkingInvariance := by
  refine ⟨md5Update_append, fun chunks => ?_⟩
  simp only [foldl_md5Update]
  have htook := md5Update_md5Init_took chunks.flatten
  exact ⟨htook.acc, htook.plen, by rw [md5Update_md5Init_count, BitVec.toNat_ofNat]⟩

/-! ### Padding and the whole message (R127, R128) -/

/-- The padding fills one block up to 55 pending bytes, and two from 56 on (R127). -/
theorem add_padLength {L : Nat} (hL : L < 64) : L + padLength L + 8 = if L ≤ 55 then 64 else 128 := by
  unfold padLength
  split <;> split <;> omega

theorem padLength_bounds {L : Nat} (hL : L < 64) : 1 ≤ padLength L ∧ padLength L ≤ 64 := by
  unfold padLength
  split <;> omega

/-- Pending bytes and their padding are whole blocks (R127). -/
theorem add_length_pad {L : Nat} (hL : L < 64) (count : Count) :
    L + (pad L count).length = 64 * if L ≤ 55 then 1 else 2 := by
  have hfill := add_padLength hL
  have hpos := (padLength_bounds hL).1
  rw [pad_length]
  by_cases hle : L ≤ 55
  · rw [if_pos hle] at hfill ⊢; omega
  · rw [if_neg hle] at hfill ⊢; omega

/-- The padding is 0x80 and zeros, `P` bytes in all, and then the counter (R127). -/
theorem length_pad_head {L : Nat} (hL : L < 64) :
    ([0x80] ++ List.replicate (padLength L - 1) 0x00 : List Byte).length = padLength L := by
  have := (padLength_bounds hL).1
  rw [List.length_append, List.length_replicate, List.length_singleton]
  omega

/-- A context has taken in its own pending bytes, from its own accumulators. -/
theorem Context.took_pend (ctx : Context) : ctx.Took ctx.acc (ctx.pend.toList.take ctx.plen.val) := by
  have hlt := ctx.plen.isLt
  have hlen : (ctx.pend.toList.take ctx.plen.val).length = ctx.plen.val := by
    rw [List.length_take, Vector.length_toList, Nat.min_eq_left (Nat.le_of_lt hlt)]
  have hdiv : ctx.plen.val / 64 = 0 := Nat.div_eq_of_lt hlt
  have hmod : ctx.plen.val % 64 = ctx.plen.val := Nat.mod_eq_of_lt hlt
  refine ⟨?_, ?_, fun k hk hkl => ?_⟩
  · rw [hlen, hdiv]; rfl
  · rw [hlen, hmod]
  · rw [hlen, hmod] at hkl
    simp [hlen, hdiv, hkl]

/-- Finalisation takes in the padding after what the context has taken in (R128). -/
theorem Context.Took.padded {acc0 : Acc} {m : List Byte} {ctx : Context} (h : ctx.Took acc0 m) :
    (md5Padded ctx).Took acc0 (m ++ pad ctx.plen.val ctx.count) :=
  h.update _

/-- What finalisation compresses, in blocks (R127). -/
theorem length_pend_append_pad (ctx : Context) :
    (ctx.pend.toList.take ctx.plen.val ++ pad ctx.plen.val ctx.count).length =
      64 * if ctx.plen.val ≤ 55 then 1 else 2 := by
  have hlt := ctx.plen.isLt
  rw [List.length_append, List.length_take, Vector.length_toList, Nat.min_eq_left (Nat.le_of_lt hlt),
    add_length_pad hlt]

/-- Settles O38: the padding's bytes are read off its two parts, and finalisation has taken in whole blocks of pending
bytes and padding (`took_pend`, `length_pend_append_pad`). -/
theorem paddingFillsBlocks : Obligations.PaddingFillsBlocks := by
  refine ⟨fun L hL count => ?_, fun ctx => ?_, rfl, rfl, rfl, rfl⟩
  · obtain ⟨hpos, hle⟩ := padLength_bounds hL
    refine ⟨hpos, hle, ?_, add_padLength hL, rfl, fun k hk hlt => ?_, ?_⟩
    · rw [pad_length]; omega
    · obtain ⟨j, rfl⟩ := Nat.exists_eq_add_of_le' hk
      have hj : j < padLength L - 1 := by omega
      simp [pad, List.getElem?_append, hj]
    · exact List.drop_left' (length_pad_head hL)
  · have htook := ctx.took_pend.padded
    have hlen := length_pend_append_pad ctx
    refine ⟨?_, ?_, md5UpdateRaw_count _ _⟩
    · rw [htook.acc, hlen, Nat.mul_div_cancel_left _ (by decide)]
    · exact Fin.ext (by rw [htook.plen, hlen, Nat.mul_mod_right]; rfl)

/-- The padded message is the message and the padding of its stream (R127). -/
theorem paddedMessage_eq (m : List Byte) :
    paddedMessage m = m ++ pad (m.length % 64) (BitVec.ofNat 64 (8 * m.length)) := by
  have hzeros : padLength (m.length % 64) - 1 = (119 - m.length % 64) % 64 := by
    unfold padLength
    split <;> omega
  simp only [paddedMessage, pad, hzeros, List.append_assoc]

/-- How many blocks the padded message has (R248). -/
theorem paddedMessage_length (m : List Byte) :
    (paddedMessage m).length = 64 * (m.length / 64 + if m.length % 64 ≤ 55 then 1 else 2) := by
  have hlt : m.length % 64 < 64 := Nat.mod_lt _ (by decide)
  rw [paddedMessage_eq, List.length_append, Nat.mul_add, ← add_length_pad hlt (BitVec.ofNat 64 (8 * m.length)),
    ← Nat.add_assoc, Nat.div_add_mod]

/-- The digest of a stream is MD5 of the whole message: after finalisation the context has taken in the padded message
(R128, R129). -/
theorem md5_eq_md5Whole (m : List Byte) : md5 m = md5Whole m := by
  have htook := md5Update_md5Init_took m
  have hpadded := htook.padded
  rw [htook.plen, md5Update_md5Init_count, ← paddedMessage_eq] at hpadded
  rw [md5, md5Digest, hpadded.acc, md5Whole]

/-- Settles O39: the chunks make one update by the whole message (`foldl_md5Update`), whose digest is the whole-message
definition's (`md5_eq_md5Whole`). -/
theorem streamedDigestIsWholeMessageMd5 : Obligations.StreamedDigestIsWholeMessageMd5 := by
  refine ⟨fun chunks => ?_, paddedMessage_length⟩
  rw [foldl_md5Update]
  exact md5_eq_md5Whole chunks.flatten

end Sys2Proof.Machine
end

section
/-! SUPPORT. What MD5_INIT, MD5_UPDATE, MD5_FINAL and MD5_DIGEST do when they complete (spec/41_md5_engine.md rules
R130 to R133). -/

namespace Sys2Proof.Machine

/-- Under SCRUB_MODE = FULL nothing of a finalised context is left (R37). -/
theorem scrub_of_full {mode : Config.ScrubMode} (h : mode = .full) (x : Context) : scrub mode x = Context.zero := by
  rw [h]
  rfl

/-- MD5_INIT of a slot there is not finds CTX_RANGE (R202). -/
theorem check_md5Init_range {c : Nat} {s : State} (h : s.params.numCtx ≤ c) : check (.md5Init c) s = .ok .ctxRange := by
  rw [check, if_pos h]

theorem encode_md5Init : ∀ c < 16, encode (.md5Init c) = 0x00000001 ||| (BitVec.ofNat 32 c <<< 4) := by
  decide

/-- A step that takes a FINALIZED slot to a stream is MD5_INIT of that slot: by R32 no other command leaves a live
slot that was not live before. -/
theorem step_finalized_to_live {s t : State} {c : Nat} (h : step s = .next t) (hs : (s.slot c).life = .finalized)
    (ht : (t.slot c).life.live = true) :
    ∃ w rest, s.pending = .writeReg 4 0x00 w :: rest ∧ decode w = .ok (.md5Init c) := by
  have hne : (t.slot c).life ≠ (s.slot c).life := by
    intro he
    rw [he, hs] at ht
    cases ht
  rcases lifecycleMovesOnlyByItsCommands s t c h hne with ⟨-, -, hl⟩ | ⟨w, i, rest, hpending, hd, hmove⟩
  · rw [hl] at ht
    cases ht
  · rw [hs] at hmove
    cases hl : (t.slot c).life <;> simp only [hl] at ht hmove
    case initialized => exact ⟨w, rest, hpending, hmove ▸ hd⟩
    case accumulating => cases hmove.2
    all_goals cases ht

/-- Settles O9: the lifecycle's transitions (`step_finalized_to_live`), the 16 words, and the command's effect and its
one error. -/
theorem initStartsStream : Obligations.InitStartsStream := by
  refine fun c s => ⟨fun t => step_finalized_to_live, encode_md5Init c, fun hc => ?_, fun hc herr => ?_⟩
  · have hpass : Passes (.md5Init c) s := hc
    exact (exec_completes hpass).mpr rfl
  · exact exec_failed herr (check_md5Init_range hc) (by decide)

/-- Settles O10: the check passes, and the bytes read are those BUF holds. -/
theorem updateAppendsToStream : Obligations.UpdateAppendsToStream := by
  intro c s m hc hsrc hlive hlen hholds
  have hpass : Passes (.md5Update c) s := ⟨hc, hsrc, hlive⟩
  exact (exec_completes hpass).mpr ⟨m, hlen, hholds, rfl⟩

/-- Settles O11: the check passes, and the effect is the digest's update of the state (`finishDigest_eq`). -/
theorem finalWritesDigest : Obligations.FinalWritesDigest := by
  intro c s hc hdst hlive
  have hpass : Passes (.md5Final c) s := ⟨hc, hdst, hlive⟩
  exact ⟨_, fun hfull => scrub_of_full hfull _, (exec_completes hpass).mpr (s.finishDigest_eq c _).symm⟩

/-- Settles O12: the bytes are read before the digest is written (R54), so the effect is the digest of what BUF held
(`finishDigest_eq`). -/
theorem digestHashesRange : Obligations.DigestHashesRange := by
  intro c s m hc hsrc hdst hlen hholds
  have hpass : Passes (.md5Digest c) s := ⟨hc, hsrc, hdst⟩
  exact ⟨_, fun hfull => scrub_of_full hfull _,
    (exec_completes hpass).mpr ⟨m, hlen, hholds, (s.finishDigest_eq c _).symm⟩⟩

end Sys2Proof.Machine
end

section
/-! SUPPORT. The to64 encoder (spec/42_to64.md rules R150 to R153): the alphabet is three runs of byte values, the
characters of a value are its digits to the base 64, least-significant first, and reading the digits back gives the
value modulo a power of 64. -/

namespace Sys2Proof.Machine

/-! ### The alphabet -/

theorem getD_byteRun {first n i : Nat} (h : i < n) (b : Byte) :
    (byteRun first n).getD i b = BitVec.ofNat 8 (first + i) := by
  simp [byteRun, h]

/-- An index into a run that others follow. -/
theorem getD_byteRun_append (first n i : Nat) (l : List Byte) (b : Byte) :
    (byteRun first n ++ l).getD i b = if i < n then BitVec.ofNat 8 (first + i) else l.getD (i - n) b := by
  have hlen : (byteRun first n).length = n := by simp [byteRun]
  rw [List.getD_eq_getElem?_getD, List.getElem?_append, hlen]
  split
  · next h => rw [← List.getD_eq_getElem?_getD, getD_byteRun h]
  · next h => rw [← List.getD_eq_getElem?_getD]

/-- `.`, `/` and the digits have consecutive codes, so the alphabet is three runs (R150). -/
theorem alpha_eq_runs : alpha = byteRun 0x2E 12 ++ (byteRun 0x41 26 ++ byteRun 0x61 26) := by
  decide

/-- Settles O43: an index falls into one of the three runs (`alpha_eq_runs`), at its distance from the run's start. -/
theorem alphabetRanges : Obligations.AlphabetRanges := by
  refine ⟨rfl, fun v hv => ?_⟩
  have hfirst : v < 12 ↔ v ≤ 11 := Nat.lt_succ_iff
  have hsecond : v - 12 < 26 ↔ v ≤ 37 := by omega
  have hthird : v - 12 - 26 < 26 := by omega
  rw [alphaChar, alpha_eq_runs, getD_byteRun_append, getD_byteRun_append, getD_byteRun hthird, Nat.sub_sub]
  simp only [hfirst, hsecond]

/-! ### The characters of a value -/

theorem two_pow_six_mul_succ (n : Nat) : 2 ^ (6 * (n + 1)) = 64 * 2 ^ (6 * n) := by
  rw [Nat.mul_succ, Nat.pow_add, Nat.mul_comm]

/-- The first `k` characters, and then those of the value without its `k` lowest digits (R151). -/
theorem to64_add (v k m : Nat) : to64 v (k + m) = to64 v k ++ to64 (v / 2 ^ (6 * k)) m := by
  induction k generalizing v with
  | zero => simp [to64]
  | succ k ih =>
    rw [Nat.succ_add, to64_succ, to64_succ, ih, Nat.div_div_eq_div_mul, two_pow_six_mul_succ, List.cons_append]

/-- Only the `n` lowest digits of the value are encoded (R152). -/
theorem to64_mod (v n : Nat) : to64 (v % 2 ^ (6 * n)) n = to64 v n := by
  induction n generalizing v with
  | zero => rfl
  | succ n ih =>
    rw [to64_succ, to64_succ, two_pow_six_mul_succ, Nat.mod_mul_right_mod, Nat.mod_mul_right_div_self, ih]

/-- Character `j` is that of digit `j` (R152). -/
theorem getElem?_to64 {v n j : Nat} (h : j < n) : (to64 v n)[j]? = some (alphaChar (v / 2 ^ (6 * j) % 64)) := by
  obtain ⟨m, rfl⟩ := Nat.exists_eq_add_of_lt h
  rw [Nat.add_assoc, to64_add, to64_succ, List.getElem?_append_right (by simp)]
  simp

/-- Zero is encoded as `.` throughout (R152). -/
theorem to64_zero (n : Nat) : to64 0 n = List.replicate n 0x2E := by
  induction n with
  | zero => rfl
  | succ n ih => rw [to64_succ, Nat.zero_div, ih]; rfl

/-- The value whose base-64 digits are the alphabet indices of the characters, least-significant first (R152). -/
def indexValue (cs : List Byte) : Nat := cs.foldr (fun b acc => alpha.idxOf b + 64 * acc) 0

/-- Reading the indices back gives the encoded digits (R152). -/
theorem indexValue_to64 (v n : Nat) : indexValue (to64 v n) = v % 2 ^ (6 * n) := by
  induction n generalizing v with
  | zero => exact (Nat.mod_one v).symm
  | succ n ih =>
    have hdigit : alpha.idxOf (alphaChar (v % 64)) = v % 64 := idxOf_alphaChar ⟨v % 64, Nat.mod_lt v (by decide)⟩
    calc indexValue (to64 v (n + 1))
      _ = v % 64 + 64 * indexValue (to64 (v / 64) n) := by
        rw [to64_succ, indexValue, List.foldr_cons, hdigit, ← indexValue]
      _ = v % 2 ^ (6 * (n + 1)) := by rw [ih, two_pow_six_mul_succ, Nat.mod_mul]

/-- A value that has `n` digits is read back whole (R152). -/
theorem indexValue_to64_of_lt {v n : Nat} (h : v < 2 ^ (6 * n)) : indexValue (to64 v n) = v := by
  rw [indexValue_to64, Nat.mod_eq_of_lt h]

/-- Settles O42: the characters are the value's digits to the base 64 (`to64_mod`, `getElem?_to64`), read back by
`indexValue`; past its `k` digits the value is 0 (`to64_add`, `to64_zero`). -/
theorem to64Properties : Obligations.To64Properties := by
  refine ⟨fun v n => (to64_mod v n).symm, fun v n => ⟨to64_length v n, fun j => getElem?_to64⟩,
    fun v n => indexValue_to64_of_lt, fun v => rfl, fun v n k hk hv => ?_⟩
  obtain ⟨m, rfl⟩ := Nat.exists_eq_add_of_le hk
  rw [to64_add, Nat.div_eq_of_lt hv, to64_zero, Nat.add_sub_cancel_left]

/-! ### TO64 -/

/-- More than `TO64_NMAX` characters is BAD_ARG, before the range is looked at (R153, R202). -/
theorem check_to64_badArg {s : State} (h : 6 < s.a1) : check .to64 s = .ok .badArg := by
  rw [check, if_pos (show Config.to64Nmax < s.a1 from h)]

theorem check_to64_bounds {s : State} (hn : s.a1 ≤ 6) (h : s.params.bufBytes < s.a4 + s.a1) :
    check .to64 s = .ok .bounds := by
  rw [check, if_neg (show ¬ Config.to64Nmax < s.a1 from Nat.not_lt.mpr hn), if_pos h]

theorem toNat_shiftRight_30 (v : Word) : (v >>> 30).toNat = v.toNat / 2 ^ 30 := by
  rw [BitVec.toNat_ushiftRight, Nat.shiftRight_eq_div_pow]

theorem alphaChar_of_lt_four : ∀ v < 4, alphaChar v ∈ ([0x2E, 0x2F, 0x30, 0x31] : List Byte) := by
  decide

/-- The sixth character of a word is that of its two highest bits (R153). -/
theorem getElem?_to64_six (v : Word) : (to64 v.toNat 6)[5]? = some (alphaChar (v >>> 30).toNat) := by
  have hbits : v.toNat / 2 ^ 30 % 64 = (v >>> 30).toNat := by
    rw [toNat_shiftRight_30]
    omega
  rw [getElem?_to64 (by decide), hbits]

/-- Six characters hold all 32 bits of a word (R153). -/
theorem to64_six_injective {v w : Word} (h : to64 v.toNat 6 = to64 w.toNat 6) : v = w := by
  have hlt : ∀ u : Word, u.toNat < 2 ^ (6 * 6) := fun u => by omega
  apply BitVec.eq_of_toNat_eq
  rw [← indexValue_to64_of_lt (hlt v), h, indexValue_to64_of_lt (hlt w)]

/-- Settles O13: the word is the encoder's (`decodeInvertsEncode`); the command completes, or its check names the error
of its range; the corner cases are facts of six base-64 digits. -/
theorem to64WritesCharacters : Obligations.To64WritesCharacters := by
  refine ⟨rfl, fun w => ?_, fun s hn hdst => ?_, fun s herr hn => ?_, fun s herr hn hdst => ?_, fun v => ?_,
    fun v w => to64_six_injective, by decide⟩
  · exact (decodeInvertsEncode w .to64).trans ((and_iff_right rfl).trans eq_comm)
  · have hpass : Passes .to64 s := ⟨hn, hdst⟩
    exact (exec_completes hpass).mpr rfl
  · exact exec_failed herr (check_to64_badArg hn) (by decide)
  · exact exec_failed herr (check_to64_bounds hn hdst) (by decide)
  · have hlt : (v >>> 30).toNat < 4 := by
      rw [toNat_shiftRight_30]
      omega
    exact ⟨_, getElem?_to64_six v, rfl, alphaChar_of_lt_four _ hlt⟩

end Sys2Proof.Machine
end

section
/-! SUPPORT. The salt (spec/43_apr1.md rules R161 to R163, R179): what the marker and the first `$` cut off, and that a
salt is its own salt and that of every string that begins with it. -/

namespace Sys2Proof.Machine

/-! ### What stands before the first byte of a kind -/

/-- The byte after the longest initial part that satisfies `p`, if there is one, does not satisfy it. -/
theorem getElem?_length_takeWhile (p : Byte → Bool) (l : List Byte) {b : Byte}
    (h : l[(l.takeWhile p).length]? = some b) : p b = false := by
  induction l with
  | nil => simp at h
  | cons a l ih =>
    by_cases ha : p a = true
    · rw [List.takeWhile_cons_of_pos ha, List.length_cons, List.getElem?_cons_succ] at h
      exact ih h
    · rw [List.takeWhile_cons_of_neg ha] at h
      obtain rfl : a = b := by simpa using h
      exact Bool.eq_false_iff.mpr ha

/-! ### The marker -/

/-- The marker is skipped, and only once (R162). -/
@[simp] theorem skipMagic_magic_append (r : List Byte) : skipMagic (magic ++ r) = r :=
  if_pos rfl

/-- A salt source without the marker is taken whole (R162). -/
theorem skipMagic_of_not_prefix {sp : List Byte} (h : ¬ magic <+: sp) : skipMagic sp = sp :=
  if_neg fun heq => h (List.prefix_iff_eq_take.mpr heq.symm)

/-- The marker begins with `$`. -/
theorem skipMagic_of_no_dollar {sp : List Byte} (h : dollar ∉ sp) : skipMagic sp = sp :=
  skipMagic_of_not_prefix fun hpre => h (hpre.subset (by decide))

theorem skipMagic_subset (sp : List Byte) : skipMagic sp ⊆ sp := by
  unfold skipMagic
  split
  · exact List.drop_subset 6 sp
  · exact List.Subset.refl sp

/-! ### The salt's characters -/

/-- The salt is an initial part of what the marker leaves (R162). -/
theorem saltOf_prefix (sp : List Byte) : saltOf sp <+: skipMagic sp :=
  (List.takeWhile_prefix _).trans (List.take_prefix _ _)

theorem dollar_not_mem_saltOf (sp : List Byte) : dollar ∉ saltOf sp := fun h => by
  have hall := List.all_eq_true.mp (List.all_takeWhile (l := (skipMagic sp).take Config.saltMax)) dollar h
  exact of_decide_eq_true hall rfl

theorem saltOf_subset (sp : List Byte) : saltOf sp ⊆ sp :=
  List.Subset.trans (saltOf_prefix sp).subset (skipMagic_subset sp)

/-- The salt ends at 8 characters, at the end of its source, or at a `$` (R162). -/
theorem saltOf_end (sp : List Byte) :
    (saltOf sp).length = 8 ∨ (skipMagic sp)[(saltOf sp).length]? = none ∨
      (skipMagic sp)[(saltOf sp).length]? = some dollar := by
  refine Decidable.or_iff_not_imp_left.mpr fun hne => ?_
  have hlt : (saltOf sp).length < Config.saltMax := Nat.lt_of_le_of_ne (saltOf_length sp) hne
  cases hb : (skipMagic sp)[(saltOf sp).length]? with
  | none => exact .inl rfl
  | some b =>
    rw [← List.getElem?_take_of_lt hlt] at hb
    have hstop := getElem?_length_takeWhile _ _ hb
    exact .inr (congrArg some (by simpa using hstop))

/-- A string that begins with a salt and goes on with a `$`, or ends, has that salt. -/
theorem takeWhile_take_salt {salt r : List Byte} (hlen : salt.length ≤ 8) (hdollar : dollar ∉ salt)
    (hr : ∀ b ∈ r.head?, b = dollar) :
    ((salt ++ r).take Config.saltMax).takeWhile (fun b => decide (b ≠ dollar)) = salt := by
  have hsalt : ∀ b ∈ salt, decide (b ≠ dollar) = true := fun b hb =>
    decide_eq_true fun heq => hdollar (heq ▸ hb)
  have htake : (salt ++ r).take Config.saltMax = salt ++ r.take (8 - salt.length) := by
    rw [Config.saltMax, List.take_append, List.take_of_length_le hlen]
  have hrest : (r.take (8 - salt.length)).takeWhile (fun b => decide (b ≠ dollar)) = [] := by
    cases r with
    | nil => simp
    | cons b r =>
      obtain rfl := hr b rfl
      cases 8 - salt.length <;> simp
  rw [htake, List.takeWhile_append_of_pos hsalt, hrest, List.append_nil]

/-- A complete hash has the salt that stands in it (R179). -/
theorem saltOf_magic_append {salt r : List Byte} (hlen : salt.length ≤ 8) (hdollar : dollar ∉ salt)
    (hr : ∀ b ∈ r.head?, b = dollar) : saltOf (magic ++ salt ++ r) = salt := by
  rw [saltOf, List.append_assoc, skipMagic_magic_append, takeWhile_take_salt hlen hdollar hr]

/-- A bare salt is its own salt (R179). -/
theorem saltOf_of_salt {salt : List Byte} (hlen : salt.length ≤ 8) (hdollar : dollar ∉ salt) : saltOf salt = salt := by
  rw [saltOf, skipMagic_of_no_dollar hdollar]
  have hcut := takeWhile_take_salt (r := []) hlen hdollar nofun
  rwa [List.append_nil] at hcut

theorem saltOf_saltOf (sp : List Byte) : saltOf (saltOf sp) = saltOf sp :=
  saltOf_of_salt (saltOf_length sp) (dollar_not_mem_saltOf sp)

/-- A text operand `ab`, 0x00, `cd` is `ab` (R160, R163). -/
theorem holdsText_of_holds_zero {m : Memory} (h : m.Holds 0 [0x61, 0x62, 0x00, 0x63, 0x64]) :
    m.HoldsText 0 5 [0x61, 0x62] := by
  simp only [Memory.holds_cons] at h
  obtain ⟨ha, hb, hzero, -⟩ := h
  refine ⟨?_, by decide, .inr ⟨by decide, hzero⟩⟩
  exact Memory.holds_cons.mpr ⟨ha, Memory.holds_cons.mpr ⟨hb, nofun⟩⟩

/-- Settles O44: the salt is cut out by the marker (`skipMagic_magic_append`), by its length and by the first `$`
(`saltOf_end`); the rule's rows are computed. -/
theorem saltExtraction : Obligations.SaltExtraction := by
  refine ⟨skipMagic_magic_append, fun sp => skipMagic_of_not_prefix, fun sp => ?_, rfl, rfl, rfl, rfl, rfl, rfl, rfl,
    rfl, rfl, rfl, rfl, fun m h => ?_⟩
  · exact ⟨saltOf_prefix sp, saltOf_length sp, dollar_not_mem_saltOf sp, mt fun h => saltOf_subset sp h, saltOf_end sp⟩
  · exact ⟨_, Memory.text_ok.mpr (holdsText_of_holds_zero h), rfl⟩

end Sys2Proof.Machine
end

section
/-! SUPPORT. The phases of the apr1 encoder as messages (spec/43_apr1.md rules R165 to R172): each of phases 4 and 5 is
one update of the primary context, each round of phase 7 the MD5 of one message. -/

namespace Sys2Proof.Machine

/-! ### Phase 4 -/

/-- What phase 4 feeds: whole copies of the seed, and then a part of it, `L` bytes in all (R167). -/
def seedBytes (seed : List Byte) (L : Nat) : List Byte :=
  (List.replicate (L / 16) seed).flatten ++ seed.take (L % 16)

theorem seedBytes_length {seed : List Byte} (h : seed.length = 16) (L : Nat) : (seedBytes seed L).length = L := by
  simp only [seedBytes, List.length_append, List.length_flatten, List.map_replicate, List.sum_replicate_nat,
    List.length_take, h]
  omega

/-- The chunks before the last, partial one are whole copies of the seed (R167). -/
theorem map_whole_chunks {seed : List Byte} (h : seed.length = 16) (L : Nat) :
    (List.range (L / 16)).map (fun j => seed.take (min 16 (L - 16 * j))) = List.replicate (L / 16) seed := by
  refine List.eq_replicate_iff.mpr ⟨by simp, fun c hc => ?_⟩
  obtain ⟨j, hj, rfl⟩ := List.mem_map.mp hc
  have hlt := List.mem_range.mp hj
  exact List.take_of_length_le (Nat.le_trans (Nat.le_of_eq h) (by omega))

/-- The chunks of phase 4 one after the other (R167). -/
theorem flatten_chunks {seed : List Byte} (h : seed.length = 16) (L : Nat) :
    ((List.range ((L + 15) / 16)).map fun j => seed.take (min 16 (L - 16 * j))).flatten = seedBytes seed L := by
  rw [seedBytes]
  by_cases hr : L % 16 = 0
  · have hcount : (L + 15) / 16 = L / 16 := by omega
    rw [hcount, map_whole_chunks h, hr, List.take_zero, List.append_nil]
  · have hcount : (L + 15) / 16 = L / 16 + 1 := by omega
    have hlast : min 16 (L - 16 * (L / 16)) = L % 16 := by omega
    rw [hcount, List.range_succ, List.map_append, map_whole_chunks h, List.flatten_append, List.map_singleton, hlast,
      List.flatten_singleton]

/-- Phase 4 is one update (R167). -/
theorem seedChunks_eq {seed : List Byte} (h : seed.length = 16) (P : Context) (L : Nat) :
    seedChunks P seed L = md5Update P (seedBytes seed L) := by
  rw [← flatten_chunks h, ← foldl_md5Update, List.foldl_map]
  rfl

/-- Settles O45: the chunks, one after the other, are `seedBytes` (`flatten_chunks`). -/
theorem seedChunksFeedPasswordLength : Obligations.SeedChunksFeedPasswordLength :=
  fun P _ L h => ⟨seedChunks_eq h P L, seedBytes_length h L⟩

/-! ### Phase 5 -/

/-- What phase 5 feeds: one byte for each bit of `L`, from the lowest (R168). -/
def bitBytes (one zero : Byte) (L : Nat) : List Byte :=
  (List.range (if L = 0 then 0 else L.log2 + 1)).map fun j => if L.testBit j then one else zero

/-- Half of a natural has one bit less, if there is any. -/
theorem log2_eq_bitCount_half (L : Nat) : L.log2 = if L / 2 = 0 then 0 else (L / 2).log2 + 1 := by
  rw [Nat.log2_def]
  split <;> split <;> omega

/-- The lowest bit's byte comes first, then those of half of `L` (R168). -/
theorem bitBytes_of_ne_zero (one zero : Byte) {L : Nat} (h : L ≠ 0) :
    bitBytes one zero L = (if L % 2 = 1 then one else zero) :: bitBytes one zero (L / 2) := by
  rw [bitBytes, if_neg h, List.range_succ_eq_map, List.map_cons, List.map_map, log2_eq_bitCount_half, bitBytes]
  simp only [Nat.testBit_zero, decide_eq_true_eq, Function.comp_def, Nat.testBit_succ]

/-- Phase 5 is one update, whenever the fuel bounds `L` (R168). -/
theorem mixBits_eq {fuel L : Nat} (h : L ≤ fuel) (one zero : Byte) (P : Context) :
    mixBits fuel L one zero P = md5Update P (bitBytes one zero L) := by
  induction fuel generalizing L P with
  | zero =>
    obtain rfl : L = 0 := Nat.le_zero.mp h
    exact (md5Update_nil P).symm
  | succ fuel ih =>
    by_cases hL : L = 0
    · subst hL
      exact (md5Update_nil P).symm
    · have hhalf : L / 2 ≤ fuel := by omega
      rw [mixBits, if_neg hL, Nat.shiftRight_eq_div_pow, Nat.pow_one, ih hhalf, Nat.and_one_is_mod, md5Update_append,
        bitBytes_of_ne_zero one zero hL, List.singleton_append]

/-- Settles O46: a round feeds the lowest bit's byte and halves `L` (`bitBytes_of_ne_zero`). -/
theorem mixBitsFeedsOneBytePerBit : Obligations.MixBitsFeedsOneBytePerBit :=
  fun _ one zero P => mixBits_eq (Nat.le_refl _) one zero P

/-! ### Phase 7 -/

/-- The message that round `i` of phase 7 hashes (R171). -/
def roundMessage (pw salt final : List Byte) (i : Nat) : List Byte :=
  (if i % 2 = 1 then pw else final) ++ (if i % 3 ≠ 0 then salt else []) ++
    (if i % 7 ≠ 0 then pw else []) ++ (if i % 2 = 1 then final else pw)

/-- A part that is left out is an empty update (R171). -/
theorem ite_md5Update (p : Prop) [Decidable p] (R : Context) (m : List Byte) :
    (if p then md5Update R m else R) = md5Update R (if p then m else []) := by
  split
  · rfl
  · exact (md5Update_nil R).symm

/-- Each round is the MD5 of its message (R171). -/
theorem stretchRound_eq (pw salt final : List Byte) (i : Nat) :
    stretchRound pw salt final i = md5 (roundMessage pw salt final i) := by
  simp only [stretchRound, roundContext, ite_md5Update, Nat.and_one_is_mod]
  simp only [md5Update_append, md5, roundMessage]

theorem stretchAll_eq (pw salt final : List Byte) :
    stretchAll pw salt final = (List.range 1000).foldl (fun f i => md5 (roundMessage pw salt f i)) final := by
  have hround : stretchRound pw salt = fun f i => md5 (roundMessage pw salt f i) :=
    funext fun f => funext fun i => stretchRound_eq pw salt f i
  rw [stretchAll, hround, Config.stretch]

/-- A round's message depends on its number modulo 2, 3 and 7 (R171). -/
theorem roundMessage_period (pw salt final : List Byte) (i : Nat) :
    roundMessage pw salt final (i + 42) = roundMessage pw salt final i := by
  have h2 : (i + 42) % 2 = i % 2 := by omega
  have h3 : (i + 42) % 3 = i % 3 := by omega
  have h7 : (i + 42) % 7 = i % 7 := by omega
  simp only [roundMessage, h2, h3, h7]

/-- Every message holds the previous digest, at its beginning or at its end (R171). -/
theorem length_le_roundMessage (pw salt final : List Byte) (i : Nat) :
    final.length ≤ (roundMessage pw salt final i).length := by
  simp only [roundMessage, List.length_append]
  by_cases hodd : i % 2 = 1
  · simp only [if_pos hodd]; omega
  · simp only [if_neg hodd]; omega

/-- Settles O47: a round is the MD5 of its message (`stretchRound_eq`); the rows of R172 are the message's parts for
that number. -/
theorem stretchingSchedule : Obligations.StretchingSchedule := by
  refine ⟨stretchAll_eq, fun pw salt final i => ⟨?_, fun hlen => ?_⟩, fun pw salt f => ?_⟩
  · rw [stretchRound_eq, stretchRound_eq, roundMessage_period]
  · exact hlen ▸ length_le_roundMessage pw salt final i
  · simp [stretchRound_eq, roundMessage]

end Sys2Proof.Machine
end

section
/-! SUPPORT. Phase 8 and the assembled string (spec/43_apr1.md rules R173 to R175, R179): the permuted digest, what the
string is made of, and that it depends on the salt source by its salt only. -/

namespace Sys2Proof.Machine

/-! ### The permuted digest -/

theorem digestByte_lt (f : List Byte) (i : Nat) : digestByte f i < 256 :=
  BitVec.isLt _

/-- The three bytes of a group are the digits of its value to the base 256 (R173). -/
theorem tripleValue_eq (f : List Byte) (t : Nat × Nat × Nat) :
    tripleValue f t = 65536 * digestByte f t.1 + 256 * digestByte f t.2.1 + digestByte f t.2.2 := by
  have hlow : digestByte f t.2.2 < 2 ^ 8 := digestByte_lt f _
  have hmid := digestByte_lt f t.2.1
  have hinner : digestByte f t.2.1 <<< 8 ||| digestByte f t.2.2 = 256 * digestByte f t.2.1 + digestByte f t.2.2 := by
    rw [← Nat.shiftLeft_add_eq_or_of_lt hlow, Nat.shiftLeft_eq, Nat.mul_comm]
  have houter : 256 * digestByte f t.2.1 + digestByte f t.2.2 < 2 ^ 16 := by omega
  rw [tripleValue, Nat.or_assoc, hinner, ← Nat.shiftLeft_add_eq_or_of_lt houter, Nat.shiftLeft_eq]
  omega

/-- A group's value fills four characters (R174). -/
theorem tripleValue_lt (f : List Byte) (t : Nat × Nat × Nat) : tripleValue f t < 2 ^ (6 * 4) := by
  have h0 := digestByte_lt f t.1
  have h1 := digestByte_lt f t.2.1
  have h2 := digestByte_lt f t.2.2
  rw [tripleValue_eq]
  omega

/-- A group's four characters give its three bytes back (R174). -/
theorem digestBytes_of_group {f g : List Byte} {t : Nat × Nat × Nat}
    (h : to64 (tripleValue f t) 4 = to64 (tripleValue g t) 4) :
    digestByte f t.1 = digestByte g t.1 ∧ digestByte f t.2.1 = digestByte g t.2.1 ∧
      digestByte f t.2.2 = digestByte g t.2.2 := by
  have hvalue : tripleValue f t = tripleValue g t := by
    rw [← indexValue_to64_of_lt (tripleValue_lt f t), h, indexValue_to64_of_lt (tripleValue_lt g t)]
  have hf1 := digestByte_lt f t.2.1
  have hf2 := digestByte_lt f t.2.2
  have hg1 := digestByte_lt g t.2.1
  have hg2 := digestByte_lt g t.2.2
  rw [tripleValue_eq, tripleValue_eq] at hvalue
  omega

/-- The two characters of group 6 give its byte back (R174). -/
theorem digestByte_of_last {f g : List Byte} {i : Nat} (h : to64 (digestByte f i) 2 = to64 (digestByte g i) 2) :
    digestByte f i = digestByte g i := by
  have hlt : ∀ f, digestByte f i < 2 ^ (6 * 2) := fun f => Nat.lt_trans (digestByte_lt f i) (by decide)
  rw [← indexValue_to64_of_lt (hlt f), h, indexValue_to64_of_lt (hlt g)]

/-- Equal strings of groups have equal groups: every group has four characters. -/
theorem groups_of_flatMap_eq {F G : Nat × Nat × Nat → Nat} {x y : List Byte} (ts : List (Nat × Nat × Nat))
    (h : ts.flatMap (fun t => to64 (F t) 4) ++ x = ts.flatMap (fun t => to64 (G t) 4) ++ y) :
    (∀ t ∈ ts, to64 (F t) 4 = to64 (G t) 4) ∧ x = y := by
  induction ts with
  | nil => exact ⟨nofun, h⟩
  | cons t ts ih =>
    simp only [List.flatMap_cons, List.append_assoc] at h
    obtain ⟨hhead, htail⟩ := List.append_inj h (by rw [to64_length, to64_length])
    obtain ⟨hgroups, hrest⟩ := ih htail
    exact ⟨List.forall_mem_cons.mpr ⟨hhead, hgroups⟩, hrest⟩

/-- The table names every byte of a digest (R173). -/
theorem perm_covers : ∀ i < 16, i = permLast ∨ ∃ t ∈ permTriples, i = t.1 ∨ i = t.2.1 ∨ i = t.2.2 := by
  decide

/-- Every byte of the digest can be read off the 22 characters (R173, R174). -/
theorem digestByte_of_encodeFinal_eq {f g : List Byte} (h : encodeFinal f = encodeFinal g) :
    ∀ i < 16, digestByte f i = digestByte g i := by
  intro i hi
  obtain ⟨hgroups, hlast⟩ := groups_of_flatMap_eq permTriples h
  rcases perm_covers i hi with rfl | ⟨t, ht, hit⟩
  · exact digestByte_of_last hlast
  · obtain ⟨h0, h1, h2⟩ := digestBytes_of_group (hgroups t ht)
    rcases hit with rfl | rfl | rfl
    · exact h0
    · exact h1
    · exact h2

theorem encodeFinal_injective {f g : List Byte} (hf : f.length = 16) (hg : g.length = 16)
    (h : encodeFinal f = encodeFinal g) : f = g := by
  refine List.ext_getElem (hf.trans hg.symm) fun i hif hig => BitVec.eq_of_toNat_eq ?_
  rw [List.getElem_eq_getD 0, List.getElem_eq_getD 0]
  exact digestByte_of_encodeFinal_eq h i (hf ▸ hif)

/-- The last character is that of the two highest bits of byte 11 (R174). -/
theorem getElem?_encodeFinal_last (f : List Byte) :
    (encodeFinal f)[21]? = some (alphaChar (digestByte f permLast / 64)) := by
  have hbits : digestByte f permLast / 2 ^ (6 * 1) % 64 = digestByte f permLast / 64 := by
    have := digestByte_lt f permLast
    omega
  have hgroups : (permTriples.flatMap fun t => to64 (tripleValue f t) 4).length = 20 := by
    simp [permTriples]
  rw [encodeFinal, List.getElem?_append_right (by rw [hgroups]; decide), hgroups, getElem?_to64 (by decide), hbits]

/-- Settles O48: a group's value has three bytes as its digits (`tripleValue_eq`), so its characters give them back
(`encodeFinal_injective`). -/
theorem permutedEncodingKeepsDigest : Obligations.PermutedEncodingKeepsDigest := by
  refine ⟨?_, fun f => ⟨encodeFinal_length f, ?_⟩, fun f g => encodeFinal_injective⟩
  · intros
    simp only [encodeFinal, permTriples, permLast, tripleValue_eq, List.flatMap_cons, List.flatMap_nil,
      List.append_nil, List.append_assoc]
    rfl
  · have hlt : digestByte f permLast / 64 < 4 := by
      have := digestByte_lt f permLast
      omega
    exact ⟨_, getElem?_encodeFinal_last f, alphaChar_of_lt_four _ hlt⟩

/-! ### The characters of the string -/

theorem alphaChar_mem {v : Nat} (h : v < 64) : alphaChar v ∈ alpha := by
  have hlen : v < alpha.length := h
  rw [alphaChar, ← List.getElem_eq_getD (h := hlen)]
  exact List.getElem_mem hlen

theorem to64_subset_alpha (v n : Nat) : to64 v n ⊆ alpha := by
  induction n generalizing v with
  | zero => exact List.nil_subset _
  | succ n ih =>
    rw [to64_succ]
    exact List.cons_subset.mpr ⟨alphaChar_mem (Nat.mod_lt v (by decide)), ih _⟩

theorem encodeFinal_subset_alpha (f : List Byte) : encodeFinal f ⊆ alpha := by
  refine List.append_subset.mpr ⟨fun b hb => ?_, to64_subset_alpha _ _⟩
  obtain ⟨t, -, hmem⟩ := List.mem_flatMap.mp hb
  exact to64_subset_alpha _ _ hmem

/-- The string has 29 characters beside the salt (R175). -/
theorem apr1String_length (literal : Bool) (pw sp : List Byte) :
    (apr1String literal pw sp).length = 29 + (saltOf sp).length := by
  rw [apr1String_eq]
  simp only [List.length_append, encodeFinal_length, magic, List.length_cons, List.length_nil]
  omega

/-- No part of the string brings in a 0x00, the salt aside (R175). -/
theorem zero_not_mem_apr1String (literal : Bool) (pw : List Byte) {sp : List Byte} (h : 0x00 ∉ sp) :
    0x00 ∉ apr1String literal pw sp := by
  have hmagic : (0x00 : Byte) ∉ magic := by decide
  have hsalt : 0x00 ∉ saltOf sp := mt (fun hmem => saltOf_subset sp hmem) h
  have hdollar : (0x00 : Byte) ∉ [dollar] := by decide
  have hfinal : ∀ f, 0x00 ∉ encodeFinal f := fun f hmem => (alpha_clean _ (encodeFinal_subset_alpha f hmem)).1 rfl
  simp only [apr1String_eq, List.mem_append, hmagic, hsalt, hdollar, hfinal, or_self, not_false_eq_true]

/-- Settles O50: the length is the sum of the parts' (`apr1String_length`), and the parts hold no 0x00. -/
theorem apr1StringShape : Obligations.Apr1StringShape := by
  intro literal pw sp
  have hlen := apr1String_length literal pw sp
  have hsalt := saltOf_length sp
  refine ⟨hlen, by omega, by omega, ?_, zero_not_mem_apr1String literal pw⟩
  rw [apr1String_eq]
  exact List.prefix_append _ _

/-! ### The string from whole messages -/

/-- After phases 3 to 5 the primary context has been fed one message (R165 to R169). -/
theorem apr1Work_primary (literal : Bool) (pw sp : List Byte) :
    (apr1Work literal pw sp).primary =
      let seed := md5 (pw ++ saltOf sp ++ pw)
      md5Update md5Init (pw ++ magic ++ saltOf sp ++ seedBytes seed pw.length ++
        bitBytes (mixByte literal seed) (pw.getD 0 0) pw.length) := by
  simp only [apr1Work, mixBits_eq (Nat.le_refl _), seedChunks_eq (md5Digest_length _), md5Update_append, md5]

/-- Phases 6 and 7 (R170, R171). -/
theorem apr1Work_final (literal : Bool) (pw sp : List Byte) :
    (apr1Work literal pw sp).final = stretchAll pw (saltOf sp) (md5Digest (apr1Work literal pw sp).primary) := by
  simp only [apr1Work]

/-- Settles O49: phases 3 to 5 feed one message (`apr1Work_primary`), and the engine's digests are those of whole
messages (`md5_eq_md5Whole`). -/
theorem apr1StringFromWholeMessages : Obligations.Apr1StringFromWholeMessages := by
  intro literal pw sp
  rw [apr1String_eq, apr1Work_final, apr1Work_primary, ← md5, md5_eq_md5Whole, md5_eq_md5Whole]
  rfl

/-! ### The salt source -/

/-- The string depends on the salt source by its salt only (R175). -/
theorem apr1String_congr (literal : Bool) (pw : List Byte) {sp sp' : List Byte} (h : saltOf sp = saltOf sp') :
    apr1String literal pw sp = apr1String literal pw sp' := by
  simp only [apr1String, apr1Work, h]

/-- An encoded string has the salt it was made from (R179). -/
theorem saltOf_apr1String (literal : Bool) (pw sp : List Byte) : saltOf (apr1String literal pw sp) = saltOf sp := by
  rw [apr1String_eq, List.append_assoc]
  exact saltOf_magic_append (saltOf_length sp) (dollar_not_mem_saltOf sp) (by simp)

/-- Settles O51: each of the salt sources has the same salt (`saltOf_magic_append`, `saltOf_apr1String`,
`saltOf_saltOf`), and only the salt matters (`apr1String_congr`). -/
theorem priorHashGivesSameString : Obligations.PriorHashGivesSameString := by
  refine ⟨fun salt rest hlen hdollar => ⟨?_, ?_, saltOf_of_salt hlen hdollar⟩, fun literal literal' pw pw' sp => ?_⟩
  · rw [List.append_assoc]
    exact saltOf_magic_append hlen hdollar (by simp [dollar])
  · have hsalt := saltOf_magic_append (r := []) hlen hdollar nofun
    rwa [List.append_nil] at hsalt
  · have hbare := saltOf_saltOf sp
    exact ⟨apr1String_congr literal pw ((saltOf_apr1String literal' pw' sp).trans hbare.symm),
      apr1String_congr literal pw hbare⟩

end Sys2Proof.Machine
end

section
/-! SUPPORT. What APR1_ENCODE does when it completes (spec/43_apr1.md rules R176, R177). -/

namespace Sys2Proof.Machine

/-- APR1_ENCODE completes if its ranges are in bounds, the output's width taken from the salt (R176, R177, R202). -/
theorem exec_apr1Encode {s : State} {pw sp : List Byte} (hpw : s.a0 + s.a1 ≤ s.params.bufBytes)
    (hsp : s.a2 + s.a3 ≤ s.params.bufBytes) (hpwText : s.buf.HoldsText s.a0 s.a1 pw)
    (hspText : s.buf.HoldsText s.a2 s.a3 sp)
    (hout : s.a4 + copyWidth s.a5 (29 + (saltOf sp).length) ≤ s.params.bufBytes) :
    exec .apr1Encode s = .next { s with
      buf    := s.buf.writeBytes s.a4 (copyBytes s.a5 (apr1String s.params.mixLiteral pw sp))
      result := BitVec.ofNat 32 (copyCount s.a5 (apr1String s.params.mixLiteral pw sp).length)
      apr1   := none } := by
  have hpass : Passes .apr1Encode s := ⟨hpw, hsp, sp, hspText, hout⟩
  exact (exec_completes hpass).mpr ⟨pw, sp, hpwText, hspText, (s.encodeApr1_eq pw sp).symm⟩

/-- Settles O14: the bytes written fill the range that the check tests (`copyBytes_apr1String_length`). -/
theorem apr1EncodeWritesString : Obligations.Apr1EncodeWritesString := by
  intro s pw sp hpw hsp hpwText hspText S k out hout
  refine exec_apr1Encode hpw hsp hpwText hspText ?_
  rw [← copyBytes_apr1String_length s.a5 s.params.mixLiteral pw sp]
  exact hout

/-! ### The copy, byte by byte -/

theorem copyBytes_of_ne_zero {cap : Nat} (h : cap ≠ 0) (S : List Byte) :
    copyBytes cap S = S.take (copyCount cap S.length) ++ [0x00] :=
  if_neg h

theorem copyCount_of_ne_zero {cap : Nat} (h : cap ≠ 0) (n : Nat) : copyCount cap n = min (cap - 1) n :=
  if_neg h

/-- A number of characters fits into RESULT (R175, R176). -/
theorem toNat_copyCount (cap : Nat) (literal : Bool) (pw sp : List Byte) :
    (BitVec.ofNat 32 (copyCount cap (apr1String literal pw sp).length)).toNat =
      copyCount cap (29 + (saltOf sp).length) := by
  have hsalt := saltOf_length sp
  rw [apr1String_length, BitVec.toNat_ofNat, Nat.mod_eq_of_lt]
  unfold copyCount
  split <;> omega

/-- What BUF holds after `k` characters of a string and a 0x00 were written to it (R176). -/
theorem Memory.read_writeBytes_terminated (m : Memory) (a : Nat) {S : List Byte} {k : Nat} (hk : k ≤ S.length) :
    (∀ j, j < k → (m.writeBytes a (S.take k ++ [0x00])).read (a + j) = S[j]?) ∧
    (m.writeBytes a (S.take k ++ [0x00])).read (a + k) = some 0x00 ∧
    ∀ x, x < a ∨ a + k < x → (m.writeBytes a (S.take k ++ [0x00])).read x = m.read x := by
  have htake : (S.take k).length = k := List.length_take_of_le hk
  have hlen : (S.take k ++ [0x00]).length = k + 1 := by rw [List.length_append, htake, List.length_singleton]
  refine ⟨fun j hj => ?_, ?_, fun x hx => Memory.read_writeBytes_outside m (by omega)⟩
  · rw [Memory.read_writeBytes, if_pos (by omega), Nat.add_sub_cancel_left,
      List.getElem?_append_left (by omega), List.getElem?_take_of_lt hj]
  · rw [Memory.read_writeBytes, if_pos (by omega), Nat.add_sub_cancel_left,
      List.getElem?_append_right (by omega), htake, Nat.sub_self]
    rfl

/-- Settles O52: the command completes with the copy (`exec_apr1Encode`), which is read back byte by byte. -/
theorem apr1OutputTruncation : Obligations.Apr1OutputTruncation := by
  intro s pw sp hpw hsp hpwText hspText hout
  have hresult := toNat_copyCount s.a5 s.params.mixLiteral pw sp
  refine ⟨_, exec_apr1Encode hpw hsp hpwText hspText hout, rfl, fun hcap => ?_, fun hcap => ?_⟩
  · rw [hcap]
    exact ⟨rfl, fun x => rfl⟩
  · rw [copyCount_of_ne_zero hcap] at hresult
    simp only [copyBytes_of_ne_zero hcap, apr1String_length, copyCount_of_ne_zero hcap] at hresult ⊢
    refine ⟨_, rfl, hresult, Memory.read_writeBytes_terminated s.buf s.a4 ?_⟩
    rw [apr1String_length]
    exact Nat.min_le_right _ _

end Sys2Proof.Machine
end

section
/-! SUPPORT. SRESET (spec/44_control.md rule R190): it completes in every state, and as a step it leaves what the reset
input leaves but for what it keeps. -/

namespace Sys2Proof.Machine

/-- SRESET has no errors (R190). -/
theorem exec_sreset (s : State) : exec .sreset s = .next s.softReset := by
  have hpass : Passes .sreset s := trivial
  exact (exec_completes hpass).mpr rfl

/-- SRESET's word runs SRESET whatever ERR is (R76, R204). -/
theorem issue_sresetWord (s : State) : issue sresetWord s = .next { s.softReset with cmd := sresetWord } := by
  rw [issue_run (.inr rfl)]
  exact congrArg complete (exec_sreset _)

/-- SRESET's word is the one that the gate of the sticky state lets through (R190, R204). -/
theorem decode_eq_sreset {w : Word} : decode w = .ok .sreset ↔ w = sresetWord :=
  (decodeInvertsEncode w .sreset).trans ((and_iff_right rfl).trans eq_comm)

/-- Leaving the error state is the reset input, except that CMD, BUF and the arguments keep their values (R190,
R230). -/
theorem State.softReset_eq_hardReset (s : State) :
    s.softReset = { s.hardReset with
      cmd := s.cmd, buf := s.buf, arg0 := s.arg0, arg1 := s.arg1, arg2 := s.arg2,
      arg3 := s.arg3, arg4 := s.arg4, arg5 := s.arg5 } := rfl

/-- Settles O15: SRESET completes in every state (`exec_sreset`), its word passes the gate (`issue_sresetWord`), and
the state left is compared with the reset input's field by field (`softReset_eq_hardReset`). -/
theorem sresetClearsErrorsAndSlots : Obligations.SresetClearsErrorsAndSlots := by
  refine ⟨rfl, fun w => decode_eq_sreset, fun s w rest hoffers herr hw => hoffers.step_eq.trans (issue_sticky herr hw),
    fun s => ⟨exec_sreset s, fun rest hoffers => ?_⟩⟩
  have hreset : State.Offers { s with pending := .reset :: rest } .reset rest := ⟨rfl, hoffers.2⟩
  have hissue := issue_sresetWord { s with pending := rest }
  rw [State.softReset_eq_hardReset] at hissue
  exact ⟨_, _, hoffers.step_eq.trans hissue, hreset.step_eq, rfl⟩

end Sys2Proof.Machine
end

section
/-! SUPPORT. Errors (spec/60_exceptions.md): the check is the list of lines of R202, a failing command changes STATUS
alone (R203), and the error state is left by SRESET and the reset input alone (R204). -/

namespace Sys2Proof.Machine

/-! ### The order of errors -/

/-- A slot that holds no stream is UNINIT or FINALIZED (R32). -/
theorem Life.live_eq_false {l : Life} : l.live = false ↔ l ∈ [Life.uninit, Life.finalized] := by
  cases l <;> decide

/-- The check of APR1_ENCODE once its input ranges are in bounds and its salt source is read (R202). -/
theorem check_apr1Encode_of_text {s : State} {sp : List Byte}
    (hin : ¬ (s.params.bufBytes < s.a0 + s.a1 ∨ s.params.bufBytes < s.a2 + s.a3))
    (hsp : s.buf.HoldsText s.a2 s.a3 sp) : check .apr1Encode s = .ok (checkApr1Out s sp) := by
  simp only [check, if_neg hin, Memory.text_ok.mpr hsp]

/-- The check answers the first line of R202 that applies, where the salt that the last BOUNDS line needs is read. -/
theorem check_eq_firstError {k : Instr} {s : State} {salt : List Byte}
    (hsalt : k = .apr1Encode → s.params.bufBytes < s.a0 + s.a1 ∨ s.params.bufBytes < s.a2 + s.a3 ∨
      ∃ sp, s.buf.HoldsText s.a2 s.a3 sp ∧ salt = saltOf sp) :
    check k s = .ok (firstError k s salt) := by
  cases k with
  | apr1Encode =>
    by_cases hin : s.params.bufBytes < s.a0 + s.a1 ∨ s.params.bufBytes < s.a2 + s.a3
    · simp [check, firstError, State.outOfBounds, hin]
    · obtain ⟨sp, hsp, rfl⟩ := (or_assoc.mpr (hsalt rfl)).resolve_left hin
      rw [check_apr1Encode_of_text hin hsp]
      simp [firstError, hin, checkApr1Out, copyWidth, apr1Length]
  | md5Init c => simp [check, firstError, Instr.slot?]
  | md5Update c => simp [check, firstError, Instr.slot?, Life.live_eq_false]
  | md5Final c => simp [check, firstError, Instr.slot?, Life.live_eq_false, Config.digestBytes]
  | md5Digest c => simp [check, firstError, Instr.slot?, Config.digestBytes]
  | to64 => simp [check, firstError, Config.to64Nmax]
  | sreset => simp [check, firstError]

/-- An effect leaves ERR = 0 (R190). -/
theorem effect_keeps_clear {i : Instr} {s t : State} (h : Effect i s t) (herr : s.status.err = false) :
    t.status.err = false := by
  rcases (effect_frame h).2 with rfl | hstatus
  · cases h; rfl
  · rw [hstatus, herr]

/-- Settles O8: the check is the order of R202 (`check_eq_firstError`), whose code is raised (`exec_failed`); without
one the command has its effect, which keeps ERR = 0. -/
theorem errorsFollowFixedOrder : Obligations.ErrorsFollowFixedOrder := by
  intro k s salt herr hsalt
  have hcheck := check_eq_firstError hsalt
  refine ⟨exec_failed herr hcheck, fun hnone t h => ?_⟩
  rw [hnone] at hcheck
  have heffect := (exec_completes (check_eq_none.mp hcheck)).mp h
  exact effect_keeps_clear heffect herr

/-! ### A failing command -/

/-- The check reads neither the host's queue, CMD nor STATUS (R202). -/
theorem check_issued (i : Instr) (s : State) (rest : List HostOp) (w : Word) (st : Status) :
    check i { s with pending := rest, cmd := w, status := st } = check i s := by
  cases i <;> rfl

/-- Settles O7: the step runs the command (`stepRunsDecodedCommand`), whose check finds the same code after issue as
before; an illegal word is O4's step. -/
theorem failingCommandChangesOnlyStatus : Obligations.FailingCommandChangesOnlyStatus := by
  intro s w rest hoffers herr
  refine ⟨fun i e hd hcheck he => ?_, fun d hd => (illegalWordRaisesIllegalCmd w).2 s rest hoffers herr ⟨d, hd⟩⟩
  have hissued := (check_issued i s rest w { s.status with busy := true }).trans hcheck
  have hfailed := exec_failed (by exact herr) hissued he
  exact (stepRunsDecodedCommand s w rest i hoffers (.inl herr) hd).trans (congrArg (onNext _) hfailed)

/-! ### The sticky error -/

/-- A CMD write while ERR = 1 clears STATUS if the word is SRESET's, and keeps it otherwise (R190, R204). -/
theorem issue_status_of_err {w : Word} {s t : State} (herr : s.status.err = true) (h : issue w s = .next t) :
    (w = sresetWord ∧ t.status = Status.reset) ∨ t.status = s.status := by
  by_cases hw : w = sresetWord
  · subst hw
    rw [issue_sresetWord] at h
    cases h
    exact .inl ⟨rfl, rfl⟩
  · rw [issue_sticky herr hw] at h
    cases h
    exact .inr rfl

/-- A step while ERR = 1 keeps STATUS unless it performs SRESET or the reset input, which clear it (R204, R209). -/
theorem step_status_of_err {s t : State} (herr : s.status.err = true) (h : step s = .next t) :
    ((∃ rest, s.pending = .writeReg 4 0x00 sresetWord :: rest ∨ s.pending = .reset :: rest) ∧
      t.status = Status.reset) ∨ t.status = s.status := by
  rcases step_next h with rfl | ⟨op, rest, hpending, hmove⟩
  · exact .inr rfl
  · rcases hostEffect_next hmove with ⟨w, rfl, hissue⟩ | ⟨rfl, rfl⟩ | hplain
    · rcases issue_status_of_err (s := { s with pending := rest }) herr hissue with ⟨rfl, hreset⟩ | hkept
      · exact .inl ⟨⟨rest, .inl hpending⟩, hreset⟩
      · exact .inr hkept
    · exact .inl ⟨⟨rest, .inr hpending⟩, rfl⟩
    · exact .inr (by rw [hplain.1])

/-- Settles O6: a word other than SRESET's only stands in CMD (`issue_sticky`), and what a step from ERR = 1 does to
STATUS is `step_status_of_err`. -/
theorem stickyErrorIgnoresCommands : Obligations.StickyErrorIgnoresCommands := by
  refine ⟨fun s w rest hoffers herr hw => hoffers.step_eq.trans (issue_sticky herr hw),
    fun s t h herr hclear => ?_, fun s t h herr herr' => ?_⟩
  · rcases step_status_of_err herr h with ⟨hop, -⟩ | hkept
    · exact hop
    · rw [hkept, herr] at hclear
      cases hclear
  · rcases step_status_of_err herr h with ⟨-, hreset⟩ | hkept
    · rw [hreset] at herr'
      cases herr'
    · rw [hkept]

/-! ### A core that is busy or idle -/

/-- The one access that a busy core takes is a word read at STATUS's offset (R240). -/
theorem HostOp.isStatusRead_iff {op : HostOp} : op.isStatusRead = true ↔ op = .readReg 4 0x04 := by
  cases op <;> simp [HostOp.isStatusRead]

/-- Settles O30: a busy core's gate (`hostMove`) lets a STATUS read through and nothing else. -/
theorem busyCoreTakesOnlyStatusReads : Obligations.BusyCoreTakesOnlyStatusReads := by
  intro s op rest hpending hbusy
  rw [step_cons hpending]
  constructor
  · rintro rfl
    exact if_neg (by simp [HostOp.isStatusRead])
  · intro hop
    have hread : op.isStatusRead = false := Bool.eq_false_iff.mpr (mt HostOp.isStatusRead_iff.mp hop)
    exact if_pos ⟨hbusy, hread⟩

/-- Settles O31: an empty queue is an idle step (`step_nil`). -/
theorem idleCoreWaits : Obligations.IdleCoreWaits := fun _ => step_nil

end Sys2Proof.Machine
end
